-- ==== Sys2Proof/Word.lean ====
section
/-! DEFINITION. The word types of the CS40 UM core (00_scope.md R12, R13, R14). -/

namespace Sys2Proof

/-- A Word: 32 bits, unsigned, "the VM's fundamental data/instruction unit" (R18). -/
abbrev Word := BitVec 32

/-- What one I/O transaction moves: a value 0..255 (R8, R9). -/
abbrev Byte := BitVec 8

/-- The 64-bit word of the bit-field codec (R12, 40_bitfield_codec.md R80). A signed operand is the
same 64 bits read in two's complement. -/
abbrev CodecWord := BitVec 64

end Sys2Proof
end

