-- ==== Sys2Proof/Config.lean ====
section
/-! DEFINITION. What the spec leaves to the environment: the free input stream, and the values the
parameters take where nothing else is said (00_scope.md R12). -/

namespace Sys2Proof

/-- The host's answer to the input request at position n of a stream the model knows nothing about:
a byte, or none for end-of-stream. A FREE VALUE (no body: nothing can be proved of it) for the OPEN
parameter INPUT_STREAM (R12, decision D24: the host answers every request with the next byte or with
end-of-stream). Log entry 1. -/
opaque Config.hostAnswer : Nat → Option Byte

/-- The default of the parameter ID_MAX (R12, decision D7): minting the next ID would bring the
counter to 0xFFFFFFFF. -/
def Config.idMaxDefault : Word := 0xFFFFFFFD#32

/-- The value State.reset gives the OPEN parameter MEM_CAPACITY_WORDS (R12, decision D8).
DESIGN CHOICE, unsafe: a run from State.reset rests on it; log entry 2. Every statement of the
package holds for every value of the parameter. -/
def Config.capacityAtReset : Nat := 2 ^ 32

end Sys2Proof
end

