-- ==== Sys2Proof/Machine/State.lean ====
section
/-! DEFINITION. The architectural state of the block (10_state.md), as plain data, and its value after
reset (70_reset_and_hazards.md R211). -/

namespace Sys2Proof.Machine

/-- The engine state (10_state.md R24). -/
inductive EngineState where
  | running
  | halted
  | faulted
deriving DecidableEq, Repr

/-- Why an instruction, a fetch or the codec faults, with the operand values the fault record keeps
(60_exceptions.md R181). -/
inductive FaultCause where
  /-- 0x1 MemoryFault(UnmappedSegment): the ID. -/
  | unmappedSegment (id : Word)
  /-- 0x2 MemoryFault(OffsetOutOfBounds): the ID, the offset, the length. -/
  | offsetOutOfBounds (id offset : Word) (length : Nat)
  /-- 0x3 MemoryFault(UnmapSegmentZero). -/
  | unmapSegmentZero
  /-- 0x4 MemoryFault(PcOutOfBounds): the pc, the length. -/
  | pcOutOfBounds (pc : Word) (length : Nat)
  /-- 0x5 ArithmeticFault(DivideByZero): the dividend. -/
  | divideByZero (dividend : Word)
  /-- 0x6 UnrecognizedOpcode: the opcode. -/
  | unrecognizedOpcode (op : Nat)
  /-- 0x7 OutputRange: the value. -/
  | outputRange (value : Word)
  /-- 0x8 ResourceExhausted(SegmentIds): the counter. -/
  | segmentIds (next : Word)
  /-- 0x9 ResourceExhausted(Capacity): the requested length. -/
  | capacity (requested : Nat)
  /-- 0xA BitFieldOverflow: width, lsb and value, those the codec operation has. -/
  | bitFieldOverflow (width : Nat) (lsb : Option Nat) (value : Option Int)
deriving DecidableEq, Repr

/-- The fault record (10_state.md R25). `cause` holds both the code and the info of the record:
`FaultCause.code` and `FaultCause.info` read them out (Machine/Status.lean). -/
structure FaultRecord where
  cause : FaultCause
  /-- The index the faulting instruction was fetched from, or the pc that failed to fetch. -/
  fpc : Word
  /-- The faulting instruction word; none for a fetch fault. -/
  word : Option Word
deriving DecidableEq, Repr

/-- A segment: a word array of fixed length, zero-filled when it is made (10_state.md R26). `words`
lists the words that are not zero, offsets strictly rising; every other offset below `length` reads 0
(log entry 4). -/
structure Segment where
  length : Nat
  words : List (Nat × Word)
deriving DecidableEq, Repr

/-- Memory: "the set of all currently mapped segments, indexed by ID" (20_memory.md R40, 10_state.md
R26): segment ID and segment, IDs strictly rising. An ID that is not listed is not mapped. -/
abbrev Memory := List (Nat × Segment)

/-- How the host's input stream goes on after the bytes already known (44_io_port.md R161). -/
inductive InputTail where
  /-- The stream is closed: end-of-stream. -/
  | closed
  /-- The host has not answered yet: an IN waits. -/
  | awaiting
  /-- The host's answers are the free values Config.hostAnswer pos, pos + 1, … (log entry 1). -/
  | host (pos : Nat)
deriving DecidableEq, Repr

/-- `in_rest`: what remains of the host's input stream (10_state.md R30). -/
structure InputRest where
  bytes : List Byte
  tail : InputTail
deriving DecidableEq, Repr

/-- The parameters a launch fixes (00_scope.md R12, 10_state.md R34). No step writes them. -/
structure Params where
  /-- MEM_CAPACITY_WORDS: total words of all mapped segments the memory can hold. -/
  memCapacityWords : Nat
  /-- ID_MAX: the largest segment ID a MAP may mint. -/
  idMax : Word
deriving DecidableEq, Repr

/-- The complete architectural state (10_state.md R35), and the run's parameters beside it. -/
structure State where
  /-- x[0] .. x[7] (R20). -/
  regs : Vector Word 8
  /-- The program counter, a word index into segment 0 (R22). -/
  pc : Word
  /-- The engine state (R24). -/
  st : EngineState
  /-- The fault record (R25). -/
  fr : Option FaultRecord
  /-- The segment table (R26). -/
  seg : Memory
  /-- The free-ID pool, most recently freed ID first (R27). -/
  pool : List Word
  /-- The ID counter (R28). -/
  next : Word
  /-- The bytes output so far, in program order (R30). -/
  out : List Byte
  /-- What remains of the input stream (R30). -/
  inRest : InputRest
  /-- End-of-stream has been delivered (R30). -/
  eos : Bool
  /-- The run's parameters (R34). -/
  params : Params
deriving DecidableEq, Repr

/-- Why no step is taken. Every fault of the spec's own table is a NEXT state in `faulted`
(60_exceptions.md R180), so these two only say that the engine has ended (10_state.md R24). -/
inductive Fault where
  /-- Raised by `step` in a Halted engine: no step is enabled. Safe. -/
  | engineHalted
  /-- Raised by `step` in a Faulted engine: no step is enabled. Safe. -/
  | engineFaulted
deriving DecidableEq, Repr

/-- Why an instruction has no meaning. -/
inductive Refusal where
  /-- The instruction is not modelled. No arm of `exec` raises it: every instruction has its meaning.
  Safe. -/
  | notModelled (mnemonic : String)
deriving DecidableEq, Repr

/-- The machine right after reset (70_reset_and_hazards.md R211): the launch of the image of 0 words
(R212, decision D23) with a free input stream. The registers, pc, st, fr, pool, next, out and eos are
the spec's values; the capacity and the input stream are OPEN in the spec (log entries 1, 2, 3). -/
def State.reset : State where
  regs := Vector.replicate 8 0#32
  pc := 0#32
  st := .running
  fr := none
  seg := [(0, ⟨0, []⟩)]
  pool := []
  next := 1#32
  out := []
  inRest := ⟨[], .host 0⟩
  eos := false
  params := ⟨Config.capacityAtReset, Config.idMaxDefault⟩

end Sys2Proof.Machine
end

