-- ==== Sys2Proof/Machine/Codec.lean ====
section
/-! DEFINITION. The bit-field codec (40_bitfield_codec.md): a stateless function unit on 64-bit words,
reached by the decoder and at the codec port (00_scope.md R11). -/

namespace Sys2Proof.Machine.Codec

/-- `fitsUnsigned(n, width)` (R83). -/
def fitsUnsigned (n : CodecWord) (width : Nat) : Except FaultCause Bool :=
  if width > 64 then .error (.bitFieldOverflow width none (some n.toNat))
  else .ok (decide (n.toNat < 2 ^ width))

/-- The range check of R86 on a domain that is already checked: -2^(width-1) ≤ n ≤ 2^(width-1) - 1,
and only 0 at width 0. -/
def inSignedRange (n : Int) (width : Nat) : Bool :=
  if width = 0 then decide (n = 0)
  else decide (-(2 : Int) ^ (width - 1) ≤ n ∧ n ≤ (2 : Int) ^ (width - 1) - 1)

/-- `fitsSigned(n, width)`, n the 64 bits in two's complement (R86). -/
def fitsSigned (n : CodecWord) (width : Nat) : Except FaultCause Bool :=
  if width > 64 then .error (.bitFieldOverflow width none (some n.toInt))
  else .ok (inSignedRange n.toInt width)

/-- The domain check of the extract and insert operations (R81). -/
def inDomain (width lsb : Nat) : Bool :=
  decide (width ≤ 64 ∧ width + lsb ≤ 64)

/-- ⌊word / 2^lsb⌋ mod 2^width, exact for every width and lsb (R82, R84). -/
def fieldValue (word : CodecWord) (width lsb : Nat) : Nat :=
  word.toNat / 2 ^ lsb % 2 ^ width

/-- `extractUnsigned(word, width, lsb)` (R84). -/
def extractUnsigned (word : CodecWord) (width lsb : Nat) : Except FaultCause CodecWord :=
  if inDomain width lsb then .ok (BitVec.ofNat 64 (fieldValue word width lsb))
  else .error (.bitFieldOverflow width (some lsb) none)

/-- The unsigned value u of a width-bit field read as two's complement (R85). -/
def signedValue (u width : Nat) : Int :=
  if width = 0 then 0
  else if u ≥ 2 ^ (width - 1) then (u : Int) - (2 : Int) ^ width
  else u

/-- `extractSigned(word, width, lsb)`: the field sign-extended to 64 bits (R85). -/
def extractSigned (word : CodecWord) (width lsb : Nat) : Except FaultCause CodecWord :=
  if inDomain width lsb then
    .ok (BitVec.ofInt 64 (signedValue (fieldValue word width lsb) width))
  else .error (.bitFieldOverflow width (some lsb) none)

/-- The word with bits [lsb, lsb+width) replaced by `value`: hi + value * 2^lsb + lo (R87). -/
def replaceField (word : CodecWord) (width lsb value : Nat) : CodecWord :=
  let hi := word.toNat / 2 ^ (lsb + width) * 2 ^ (lsb + width)
  let lo := word.toNat % 2 ^ lsb
  BitVec.ofNat 64 (hi + value * 2 ^ lsb + lo)

/-- `insertUnsigned(word, width, lsb, value)`: domain before fit (R87, R89). -/
def insertUnsigned (word : CodecWord) (width lsb : Nat) (value : CodecWord) :
    Except FaultCause CodecWord :=
  if inDomain width lsb ∧ value.toNat < 2 ^ width then
    .ok (replaceField word width lsb value.toNat)
  else .error (.bitFieldOverflow width (some lsb) (some value.toNat))

/-- value mod 2^width: the width-bit two's complement encoding of a signed value (R88). -/
def encodeSigned (value : Int) (width : Nat) : Nat :=
  (value % (2 : Int) ^ width).toNat

/-- `insertSigned(word, width, lsb, value)`, value in two's complement (R88, R89). -/
def insertSigned (word : CodecWord) (width lsb : Nat) (value : CodecWord) :
    Except FaultCause CodecWord :=
  if inDomain width lsb ∧ inSignedRange value.toInt width then
    .ok (replaceField word width lsb (encodeSigned value.toInt width))
  else .error (.bitFieldOverflow width (some lsb) (some value.toInt))

/-- A request at the codec port (00_scope.md R11, decision D14). -/
inductive Request where
  | fitsUnsigned (n : CodecWord) (width : Nat)
  | fitsSigned (n : CodecWord) (width : Nat)
  | extractUnsigned (word : CodecWord) (width lsb : Nat)
  | extractSigned (word : CodecWord) (width lsb : Nat)
  | insertUnsigned (word : CodecWord) (width lsb : Nat) (value : CodecWord)
  | insertSigned (word : CodecWord) (width lsb : Nat) (value : CodecWord)
deriving DecidableEq, Repr

/-- An answer of the codec port: a truth value of a fits check, or a word. -/
inductive Answer where
  | truth (b : Bool)
  | word (w : CodecWord)
deriving DecidableEq, Repr

/-- The codec port: total, stateless, answering a result or BitFieldOverflow on its own error output
(00_scope.md R11, R94). It reads and writes nothing of the engine's state. -/
def port : Request → Except FaultCause Answer
  | .fitsUnsigned n width => (fitsUnsigned n width).map .truth
  | .fitsSigned n width => (fitsSigned n width).map .truth
  | .extractUnsigned word width lsb => (extractUnsigned word width lsb).map .word
  | .extractSigned word width lsb => (extractSigned word width lsb).map .word
  | .insertUnsigned word width lsb value => (insertUnsigned word width lsb value).map .word
  | .insertSigned word width lsb value => (insertSigned word width lsb value).map .word

end Sys2Proof.Machine.Codec
end

