-- ==== Sys2Proof/Syntax.lean ====
section
/-! DEFINITION. The instructions of the UM ISA: one constructor per row of the opcode table
(30_encoding.md R64, R69). -/

namespace Sys2Proof

/-- A register index 0..7, naming r0..r7 (30_encoding.md R66). -/
abbrev Reg := Fin 8

/-- The instructions, with the operand fields each one uses (10_state.md R21); the fields it does not
use are ignored by the decoder (30_encoding.md R65). Operands stand in the order A, B, C. -/
inductive Instr where
  /-- op 0: conditional move. -/
  | cmov (a b c : Reg)
  /-- op 1: segmented load. -/
  | sload (a b c : Reg)
  /-- op 2: segmented store. -/
  | sstore (a b c : Reg)
  /-- op 3: add. -/
  | add (a b c : Reg)
  /-- op 4: multiply. -/
  | mul (a b c : Reg)
  /-- op 5: divide. -/
  | div (a b c : Reg)
  /-- op 6: bitwise NAND. -/
  | nand (a b c : Reg)
  /-- op 7: halt. -/
  | halt
  /-- op 8: map a segment. -/
  | map (b c : Reg)
  /-- op 9: unmap a segment. -/
  | unmap (c : Reg)
  /-- op 10: output. -/
  | out (c : Reg)
  /-- op 11: input. -/
  | inp (c : Reg)
  /-- op 12: load program. -/
  | loadp (b c : Reg)
  /-- op 13: load immediate; the immediate form. -/
  | lv (a : Reg) (imm : Word)
  /-- op 14: illegal. -/
  | illegal14
  /-- op 15: illegal. -/
  | illegal15
deriving DecidableEq, Repr

/-- The value of bits [31:28] that selects the instruction (30_encoding.md R61, R64, R69). -/
def Instr.opcode : Instr → Nat
  | .cmov _ _ _ => 0
  | .sload _ _ _ => 1
  | .sstore _ _ _ => 2
  | .add _ _ _ => 3
  | .mul _ _ _ => 4
  | .div _ _ _ => 5
  | .nand _ _ _ => 6
  | .halt => 7
  | .map _ _ => 8
  | .unmap _ => 9
  | .out _ => 10
  | .inp _ => 11
  | .loadp _ _ => 12
  | .lv _ _ => 13
  | .illegal14 => 14
  | .illegal15 => 15

end Sys2Proof
end

