-- ==== Sys2Proof/WellFormed.lean ====
section
/-! DEFINITION. Which instruction terms the encoding can hold. -/

namespace Sys2Proof

/-- A register index is in range by its type (30_encoding.md R66: "precluded by the 3-bit instruction
encoding"). The one check left is the width of LV's immediate: 0 ≤ imm < 2^25 (R67,
41_register_ops.md R105). -/
def Instr.wellFormed : Instr → Bool
  | .lv _ imm => imm.toNat < 2 ^ 25
  | .cmov _ _ _ | .sload _ _ _ | .sstore _ _ _ | .add _ _ _ | .mul _ _ _ | .div _ _ _ | .nand _ _ _
  | .halt | .map _ _ | .unmap _ | .out _ | .inp _ | .loadp _ _ | .illegal14 | .illegal15 => true

/-- The instruction fits its encoding. -/
abbrev Instr.WellFormed (i : Instr) : Prop := i.wellFormed = true

end Sys2Proof
end

