-- ==== Sys2Proof/Decode.lean ====
section
/-! DEFINITION. The decoder and the encoder (30_encoding.md). -/

namespace Sys2Proof

open Machine (FaultCause)

/-- One field of an instruction word: the codec's unsigned extract on the zero-extended word
(30_encoding.md R68). -/
def fieldOf (w : Word) (width lsb : Nat) : Except FaultCause Nat :=
  (Machine.Codec.extractUnsigned (w.setWidth 64) width lsb).map (·.toNat)

/-- A 3-bit register field (R66). -/
def regField (w : Word) (lsb : Nat) : Except FaultCause Reg :=
  (fieldOf w 3 lsb).map (Fin.ofNat 8)

/-- The three-register form's operands A, B, C (R62). -/
def withABC (w : Word) (f : Reg → Reg → Reg → Instr) : Except FaultCause Instr := do
  let a ← regField w 6
  let b ← regField w 3
  let c ← regField w 0
  pure (f a b c)

/-- The immediate form's operands A and imm (R63, R67). -/
def withImm (w : Word) (f : Reg → Word → Instr) : Except FaultCause Instr := do
  let a ← regField w 25
  let imm ← fieldOf w 25 0
  pure (f a (BitVec.ofNat 32 imm))

/-- The layout and instruction that an opcode selects (R61, R64, R69): every value of the 4-bit field
has its row. -/
def decodeOp (w : Word) : Fin 16 → Except FaultCause Instr
  | ⟨0, _⟩ => withABC w .cmov
  | ⟨1, _⟩ => withABC w .sload
  | ⟨2, _⟩ => withABC w .sstore
  | ⟨3, _⟩ => withABC w .add
  | ⟨4, _⟩ => withABC w .mul
  | ⟨5, _⟩ => withABC w .div
  | ⟨6, _⟩ => withABC w .nand
  | ⟨7, _⟩ => withABC w (fun _ _ _ => .halt)
  | ⟨8, _⟩ => withABC w (fun _ b c => .map b c)
  | ⟨9, _⟩ => withABC w (fun _ _ c => .unmap c)
  | ⟨10, _⟩ => withABC w (fun _ _ c => .out c)
  | ⟨11, _⟩ => withABC w (fun _ _ c => .inp c)
  | ⟨12, _⟩ => withABC w (fun _ b c => .loadp b c)
  | ⟨13, _⟩ => withImm w .lv
  | ⟨14, _⟩ => .ok .illegal14
  | ⟨15, _⟩ => .ok .illegal15
  | ⟨n + 16, h⟩ => absurd h (by omega)

/-- The decoder (R68), total on all words (R69). Its error is the codec's BitFieldOverflow, by name
(40_bitfield_codec.md R93); no word reaches it (R95, theorem decode_total). -/
def decode (w : Word) : Except FaultCause Instr := do
  let op ← fieldOf w 4 28
  decodeOp w (Fin.ofNat 16 op)

/-- Four bytes, most significant first (70_reset_and_hazards.md R212). -/
def wordOfBytes (b0 b1 b2 b3 : Byte) : Word :=
  b0 ++ b1 ++ b2 ++ b3

/-- The bytes of a word, most significant first (70_reset_and_hazards.md R212). -/
def bytesOfWord (w : Word) : List Byte :=
  [w.extractLsb' 24 8, w.extractLsb' 16 8, w.extractLsb' 8 8, w.extractLsb' 0 8]

/-- Why bytes do not decode. -/
inductive DecodeError where
  /-- Fewer than the four bytes of a word are left (30_encoding.md R60). -/
  | truncated
  /-- The codec failed while the fields were extracted (R68). -/
  | codec (c : FaultCause)
deriving DecidableEq, Repr

/-- The decoder on image bytes: one instruction and the bytes after it (R60, R212). -/
def decodeBytes : List Byte → Except DecodeError (Instr × List Byte)
  | b0 :: b1 :: b2 :: b3 :: rest =>
    match decode (wordOfBytes b0 b1 b2 b3) with
    | .ok i => .ok (i, rest)
    | .error c => .error (.codec c)
  | _ => .error .truncated

/-- The instruction the decoder reads from the table's bits: w, cut to nbits, is one word with bit 0
its least significant bit; it is laid out as the image holds it and given to the decoder. -/
def decodeTableWord (nbits w : Nat) : Option Instr :=
  match decodeBytes (bytesOfWord (BitVec.ofNat 32 (w % 2 ^ nbits))) with
  | .ok (i, _) => some i
  | .error _ => none

/-- A three-register word with zero in every ignored bit (30_encoding.md R62, R70). -/
def encodeABC (op : Nat) (a b c : Nat) : Word :=
  BitVec.ofNat 32 (op * 2 ^ 28 + a * 2 ^ 6 + b * 2 ^ 3 + c)

/-- An immediate-form word (30_encoding.md R63, R70). -/
def encodeImm (op : Nat) (a imm : Nat) : Word :=
  BitVec.ofNat 32 (op * 2 ^ 28 + a * 2 ^ 25 + imm)

/-- The word of a well-formed instruction, as the assembler notation writes it: zero in every ignored
bit and unused field (30_encoding.md R70). -/
def encode : Instr → Word
  | .cmov a b c => encodeABC 0 a b c
  | .sload a b c => encodeABC 1 a b c
  | .sstore a b c => encodeABC 2 a b c
  | .add a b c => encodeABC 3 a b c
  | .mul a b c => encodeABC 4 a b c
  | .div a b c => encodeABC 5 a b c
  | .nand a b c => encodeABC 6 a b c
  | .halt => encodeABC 7 0 0 0
  | .map b c => encodeABC 8 0 b c
  | .unmap c => encodeABC 9 0 0 c
  | .out c => encodeABC 10 0 0 c
  | .inp c => encodeABC 11 0 0 c
  | .loadp b c => encodeABC 12 0 b c
  | .lv a imm => encodeImm 13 a imm.toNat
  | .illegal14 => encodeABC 14 0 0 0
  | .illegal15 => encodeABC 15 0 0 0

end Sys2Proof
end

