-- ==== Sys2Proof/Machine/Ops.lean ====
section
/-! DEFINITION. The named operations over registers, memory, the segment pool, the ports and the engine
state; taking a fault; fetching an instruction. -/

namespace Sys2Proof.Machine

/-! ### Sorted tables -/

/-- The value listed under key k. -/
def assocFind {α : Type} (k : Nat) : List (Nat × α) → Option α
  | [] => none
  | (j, v) :: rest => if j = k then some v else assocFind k rest

/-- The table with v under key k, its place kept in key order. -/
def assocPut {α : Type} (k : Nat) (v : α) : List (Nat × α) → List (Nat × α)
  | [] => [(k, v)]
  | (j, u) :: rest =>
    if k < j then (k, v) :: (j, u) :: rest
    else if k = j then (k, v) :: rest
    else (j, u) :: assocPut k v rest

/-- The table without key k. -/
def assocDel {α : Type} (k : Nat) : List (Nat × α) → List (Nat × α)
  | [] => []
  | (j, u) :: rest => if j = k then assocDel k rest else (j, u) :: assocDel k rest

/-- Keys strictly rising. -/
abbrev keysRise {α : Type} (t : List (Nat × α)) : Prop :=
  (t.map Prod.fst).Pairwise (· < ·)

/-! ### Segments -/

/-- The canonical form of a segment: offsets strictly rising and inside the segment, no listed zero;
the length is a Word (00_scope.md R12 SEG_LEN_MAX). -/
abbrev Segment.wf (g : Segment) : Prop :=
  keysRise g.words ∧ (∀ e ∈ g.words, e.1 < g.length ∧ e.2 ≠ 0#32) ∧ g.length < 2 ^ 32

/-- A zero-filled segment of n words (20_memory.md R44). -/
def Segment.zeros (n : Nat) : Segment := ⟨n, []⟩

/-- The word at offset o; an unlisted word is 0, the zero fill (20_memory.md R44, 42_memory_ops.md
R126). -/
def Segment.get (g : Segment) (o : Nat) : Word :=
  (assocFind o g.words).getD 0#32

/-- The segment with word v at offset o. -/
def Segment.put (g : Segment) (o : Nat) (v : Word) : Segment :=
  { g with words := if v = 0#32 then assocDel o g.words else assocPut o v g.words }

/-- The words of a list as a segment of its length, entries from offset o on. -/
def Segment.entries (o : Nat) : List Word → List (Nat × Word)
  | [] => []
  | w :: ws => if w = 0#32 then Segment.entries (o + 1) ws else (o, w) :: Segment.entries (o + 1) ws

/-- A segment holding the given words (70_reset_and_hazards.md R211). -/
def Segment.ofWords (ws : List Word) : Segment := ⟨ws.length, Segment.entries 0 ws⟩

/-! ### Memory: the access primitives (20_memory.md section 2) -/

/-- The canonical form of memory: IDs strictly rising, every segment canonical. -/
abbrev Memory.wf (m : Memory) : Prop :=
  keysRise m ∧ ∀ e ∈ m, e.2.wf

/-- The segment an ID names; none if the ID is not mapped (10_state.md R26). -/
def Memory.find (m : Memory) (id : Word) : Option Segment :=
  assocFind id.toNat m

/-- The words of all mapped segments together: `used` of 20_memory.md R44. -/
def Memory.used (m : Memory) : Nat :=
  (m.map (·.2.length)).sum

/-- MemRead(⟨id, o⟩, 1) (20_memory.md R41). -/
def Memory.read (m : Memory) (id o : Word) : Except FaultCause Word :=
  match m.find id with
  | none => .error (.unmappedSegment id)
  | some g =>
    if o.toNat ≥ g.length then .error (.offsetOutOfBounds id o g.length)
    else .ok (g.get o.toNat)

/-- MemWrite(⟨id, o⟩, 1, v) (20_memory.md R42). -/
def Memory.write (m : Memory) (id o v : Word) : Except FaultCause Memory :=
  match m.find id with
  | none => .error (.unmappedSegment id)
  | some g =>
    if o.toNat ≥ g.length then .error (.offsetOutOfBounds id o g.length)
    else .ok (assocPut id.toNat (g.put o.toNat v) m)

/-- The length of segment 0; 0 in the states no run reaches where it is not mapped (log entry 6). -/
def Memory.programLength (m : Memory) : Nat :=
  match m.find 0#32 with
  | none => 0
  | some g => g.length

/-- Dup(id): segment 0 becomes a copy of segment id (20_memory.md R47). -/
def Memory.dup (m : Memory) (capacity : Nat) (id : Word) : Except FaultCause Memory :=
  if id = 0#32 then .ok m
  else
    match m.find id with
    | none => .error (.unmappedSegment id)
    | some g =>
      if m.used - m.programLength + g.length > capacity then .error (.capacity g.length)
      else .ok (assocPut 0 g m)

/-! ### Registers and the program counter -/

/-- x[r] (10_state.md R20). -/
def State.reg (s : State) (r : Reg) : Word := s.regs[r]

/-- x[r] <- v (10_state.md R20). -/
def State.setReg (s : State) (r : Reg) (v : Word) : State :=
  { s with regs := s.regs.set r v }

/-- pc <- t (10_state.md R22). -/
def State.setPc (s : State) (t : Word) : State := { s with pc := t }

/-- pc <- pc + 1: the fetch's increment (10_state.md R23, 43_engine_control.md R140). It takes effect
with the instruction's other writes at the end of the step (R142), so a meaning applies it. -/
def State.advance (s : State) : State := s.setPc (s.pc + 1#32)

/-! ### Allocation (20_memory.md section 3) -/

/-- The ID that Map will use, with the pool and the counter it will leave: the most recently freed ID,
else the counter's value (20_memory.md R44). -/
def State.chooseId (s : State) : Except FaultCause (Word × List Word × Word) :=
  match s.pool with
  | id :: rest => .ok (id, rest, s.next)
  | [] =>
    if s.next.toNat > s.params.idMax.toNat then .error (.segmentIds s.next)
    else .ok (s.next, [], s.next + 1#32)

/-- Map(n): the new ID and the state with its zero-filled segment (20_memory.md R44). -/
def State.mapSegment (s : State) (n : Word) : Except FaultCause (Word × State) :=
  match s.chooseId with
  | .error c => .error c
  | .ok (id, pool, next) =>
    if s.seg.used + n.toNat > s.params.memCapacityWords then .error (.capacity n.toNat)
    else
      .ok (id,
        { s with seg := assocPut id.toNat (Segment.zeros n.toNat) s.seg, pool := pool, next := next })

/-- Unmap(id) (20_memory.md R46). -/
def State.unmapSegment (s : State) (id : Word) : Except FaultCause State :=
  if id = 0#32 then .error .unmapSegmentZero
  else
    match s.seg.find id with
    | none => .error (.unmappedSegment id)
    | some _ => .ok { s with seg := assocDel id.toNat s.seg, pool := id :: s.pool }

/-- Dup(id) on the state (20_memory.md R47). -/
def State.loadProgram (s : State) (id : Word) : Except FaultCause State :=
  match s.seg.dup s.params.memCapacityWords id with
  | .error c => .error c
  | .ok m => .ok { s with seg := m }

/-! ### The I/O port (44_io_port.md) -/

/-- Output(b): the port takes the byte at once (R160). -/
def State.output (s : State) (b : Byte) : State := { s with out := s.out ++ [b] }

/-- The host's answer to an input request (R161). -/
inductive InputAnswer where
  | byte (b : Byte)
  | endOfStream
deriving DecidableEq, Repr

/-- The effect of the host's free answer at a stream position: the byte and the stream after it, or
end-of-stream, which closes the stream (R161, log entry 1). -/
def hostInput (pos : Nat) : Option Byte → InputAnswer × InputRest × Bool
  | some b => (.byte b, ⟨[], .host (pos + 1)⟩, false)
  | none => (.endOfStream, ⟨[], .closed⟩, true)

/-- Input(): the answer with the stream and the eos flag it leaves; none while the host has not
answered, and the engine waits (R161). -/
def State.input (s : State) : Option (InputAnswer × InputRest × Bool) :=
  if s.eos then some (.endOfStream, s.inRest, true)
  else
    match s.inRest.bytes with
    | b :: rest => some (.byte b, ⟨rest, s.inRest.tail⟩, false)
    | [] =>
      match s.inRest.tail with
      | .closed => some (.endOfStream, s.inRest, true)
      | .awaiting => none
      | .host pos => some (hostInput pos (Config.hostAnswer pos))

/-! ### Fetch and faults -/

/-- The fetch read of segment 0 at pc (20_memory.md R43, 43_engine_control.md R140). -/
def State.fetch (s : State) : Except FaultCause Word :=
  match s.seg.find 0#32 with
  | none => .error (.pcOutOfBounds s.pc 0)
  | some g =>
    if s.pc.toNat ≥ g.length then .error (.pcOutOfBounds s.pc g.length)
    else .ok (g.get s.pc.toNat)

/-- The record of a fault with the given cause: the index and the word of the instruction being
executed; no word where the fetch itself failed (10_state.md R25, 43_engine_control.md R142). -/
def State.record (s : State) (c : FaultCause) : FaultRecord :=
  ⟨c, s.pc, s.fetch.toOption⟩

/-- `raise`: TAKING A FAULT, the one operation for every cause. The engine becomes Faulted and the
record is written; nothing else of the step takes effect, and pc stays at the faulting index
(43_engine_control.md R142, 60_exceptions.md R180). There is no return from it (R184). -/
def State.raise (s : State) (c : FaultCause) : State :=
  { s with st := .faulted, fr := some (s.record c) }

/-- A step that ends in the Faulted state. -/
def State.takeFault (s : State) (c : FaultCause) : Host.Outcome State Fault Refusal :=
  .next (s.raise c)

/-- The end of a step: its writes together, or the fault and none of them (43_engine_control.md
R142). -/
def State.commit (s : State) : Except FaultCause State → Host.Outcome State Fault Refusal
  | .ok t => .next t
  | .error c => s.takeFault c

/-- `halt` (43_engine_control.md R146). -/
def State.haltEngine (s : State) : State := { s with st := .halted }

/-- s with the instruction word w where the next fetch reads it: segment 0 is mapped, long enough to
hold index pc, and the engine is Running with no fault recorded, as after a launch. -/
def State.placeWord (s : State) (w : Word) : State :=
  let g := (s.seg.find 0#32).getD (Segment.zeros 0)
  let g' := Segment.put ⟨max g.length (s.pc.toNat + 1), g.words⟩ s.pc.toNat w
  { s with seg := assocPut 0 g' s.seg, st := .running, fr := none }

end Sys2Proof.Machine
end

