-- ==== Sys2Proof/Machine/Operands.lean ====
section
/-! DEFINITION. The operand forms: a register by its index (Machine/Ops.lean, State.reg), the one
immediate of the ISA, and the byte operands of the I/O port. -/

namespace Sys2Proof.Machine

/-- LV's operand zext_32(w[24:0]): 25 bits, unsigned, zero-extended (30_encoding.md R67). -/
def immValue (imm : Word) : Word := (imm.setWidth 25).setWidth 32

/-- OUT's operand x[C][7:0] (44_io_port.md R162). -/
def byteOperand (v : Word) : Byte := v.extractLsb' 0 8

/-- The end-of-stream sentinel (00_scope.md R12 EOS_SENTINEL). -/
def eosSentinel : Word := 0xFFFFFFFF#32

/-- What IN writes: zext_32 of the byte, or the sentinel at end-of-stream (44_io_port.md R163). -/
def inputValue : InputAnswer → Word
  | .byte b => b.setWidth 32
  | .endOfStream => eosSentinel

end Sys2Proof.Machine
end

