-- ==== Sys2Proof/Machine/Flags.lean ====
section
/-! DEFINITION. The ISA has NO status flags and no condition codes, and no instruction sets one
(10_state.md R31). What stands here is all it has in their place: the tests on register values that
decide what an instruction does. -/

namespace Sys2Proof.Machine

/-- CMOV's condition x[C] ≠ 0: "the only conditional instruction" (10_state.md R31,
41_register_ops.md R100). -/
def condHolds (v : Word) : Bool := decide (v ≠ 0#32)

/-- DIV's test for a zero divisor (41_register_ops.md R103). -/
def isZero (v : Word) : Bool := decide (v = 0#32)

/-- OUT's range test x[C] > 255, unsigned (44_io_port.md R162). -/
def aboveByte (v : Word) : Bool := decide (v.toNat > 255)

end Sys2Proof.Machine
end

