-- ==== Sys2Proof/Machine/RegisterOps.lean ====
section
/-! DEFINITION. The register and ALU instructions (41_register_ops.md). No one of them touches memory
or writes a flag; each reads its sources before it writes (R110). -/

namespace Sys2Proof.Machine

/-- (a + b) mod 2^32 (R101); the carry is discarded. -/
def aluAdd (a b : Word) : Word := a + b

/-- (a * b) mod 2^32 (R102); the high half of the product is discarded. -/
def aluMul (a b : Word) : Word := a * b

/-- ⌊a ÷ b⌋, unsigned (R103, R108). -/
def aluDiv (a b : Word) : Word := BitVec.ofNat 32 (a.toNat / b.toNat)

/-- ~(a & b) (R104). -/
def aluNand (a b : Word) : Word := ~~~(a &&& b)

/-- A result written to the destination register, and the pc at the next index. -/
def State.finish (s : State) (a : Reg) (v : Word) : State := (s.setReg a v).advance

/-- R100: if x[C] ≠ 0 then x[A] <- x[B]. -/
def execCmov (a b c : Reg) (s : State) : Host.Outcome State Fault Refusal :=
  .next (if condHolds (s.reg c) then s.finish a (s.reg b) else s.advance)

/-- R101: x[A] <- (x[B] + x[C]) mod 2^32. -/
def execAdd (a b c : Reg) (s : State) : Host.Outcome State Fault Refusal :=
  .next (s.finish a (aluAdd (s.reg b) (s.reg c)))

/-- R102: x[A] <- (x[B] * x[C]) mod 2^32. -/
def execMul (a b c : Reg) (s : State) : Host.Outcome State Fault Refusal :=
  .next (s.finish a (aluMul (s.reg b) (s.reg c)))

/-- R103: x[A] <- ⌊x[B] ÷ x[C]⌋, or the fault DivideByZero with x[A] not written. -/
def execDiv (a b c : Reg) (s : State) : Host.Outcome State Fault Refusal :=
  if isZero (s.reg c) then s.takeFault (.divideByZero (s.reg b))
  else .next (s.finish a (aluDiv (s.reg b) (s.reg c)))

/-- R104: x[A] <- ~(x[B] & x[C]). -/
def execNand (a b c : Reg) (s : State) : Host.Outcome State Fault Refusal :=
  .next (s.finish a (aluNand (s.reg b) (s.reg c)))

/-- R105: x[A] <- zext_32(imm). -/
def execLv (a : Reg) (imm : Word) (s : State) : Host.Outcome State Fault Refusal :=
  .next (s.finish a (immValue imm))

end Sys2Proof.Machine
end

