-- ==== Sys2Proof/Machine/MemoryOps.lean ====
section
/-! DEFINITION. The memory instructions (42_memory_ops.md) over the primitives of 20_memory.md. A
faulting instruction writes nothing (43_engine_control.md R142). -/

namespace Sys2Proof.Machine

/-- R120: x[A] <- MemRead(⟨x[B], x[C]⟩, 1). -/
def execSload (a b c : Reg) (s : State) : Host.Outcome State Fault Refusal :=
  s.commit ((s.seg.read (s.reg b) (s.reg c)).map fun v => s.finish a v)

/-- R121: MemWrite(⟨x[A], x[B]⟩, 1, x[C]). -/
def execSstore (a b c : Reg) (s : State) : Host.Outcome State Fault Refusal :=
  s.commit ((s.seg.write (s.reg a) (s.reg b) (s.reg c)).map fun m => { s with seg := m }.advance)

/-- R122: x[B] <- Map(x[C]). -/
def execMap (b c : Reg) (s : State) : Host.Outcome State Fault Refusal :=
  s.commit ((s.mapSegment (s.reg c)).map fun r => r.2.finish b r.1)

/-- R123: Unmap(x[C]). -/
def execUnmap (c : Reg) (s : State) : Host.Outcome State Fault Refusal :=
  s.commit ((s.unmapSegment (s.reg c)).map fun t => t.advance)

end Sys2Proof.Machine
end

