-- ==== Sys2Proof/Machine/Control.lean ====
section
/-! DEFINITION. Engine control: HALT, LOADP and the illegal opcodes (43_engine_control.md). -/

namespace Sys2Proof.Machine

/-- R146: st <- Halted; pc is the next index, as the fetch left it. The segments, registers and the
rest stay as they are (R146 "nothing else changes"; 20_memory.md R49, log entry 7). -/
def execHalt (s : State) : Host.Outcome State Fault Refusal :=
  .next s.advance.haltEngine

/-- R148: Dup(x[B]), then pc <- x[C]; both operands are read first. -/
def execLoadp (b c : Reg) (s : State) : Host.Outcome State Fault Refusal :=
  s.commit ((s.loadProgram (s.reg b)).map fun t => t.setPc (s.reg c))

/-- R150: raise UnrecognizedOpcode(14). -/
def execIllegal14 (s : State) : Host.Outcome State Fault Refusal :=
  s.takeFault (.unrecognizedOpcode 14)

/-- R150: raise UnrecognizedOpcode(15). -/
def execIllegal15 (s : State) : Host.Outcome State Fault Refusal :=
  s.takeFault (.unrecognizedOpcode 15)

end Sys2Proof.Machine
end

