-- ==== Sys2Proof/Machine/Io.lean ====
section
/-! DEFINITION. The I/O instructions OUT and IN (44_io_port.md). -/

namespace Sys2Proof.Machine

/-- R162: Output(x[C][7:0]), or the fault OutputRange with no byte output. -/
def execOut (c : Reg) (s : State) : Host.Outcome State Fault Refusal :=
  if aboveByte (s.reg c) then s.takeFault (.outputRange (s.reg c))
  else .next (s.output (byteOperand (s.reg c))).advance

/-- R163: x[C] <- the byte, or 0xFFFFFFFF at end-of-stream. While the host has not answered, the
engine waits: nothing changes, pc included, and the next step asks again (R161, log entry 5). -/
def execInp (c : Reg) (s : State) : Host.Outcome State Fault Refusal :=
  match s.input with
  | none => .next s
  | some r => .next ({ s with inRest := r.2.1, eos := r.2.2 }.finish c (inputValue r.1))

end Sys2Proof.Machine
end

