-- ==== Sys2Proof/Machine/Step.lean ====
section
/-! DEFINITION. One step of the engine (43_engine_control.md R140 to R143). -/

namespace Sys2Proof.Machine

/-- A step is taken only while Running (10_state.md R24): fetch (R140), decode and dispatch (R141). A
fetch that fails and a codec that fails are faults of the step (20_memory.md R43, 40_bitfield_codec.md
R93). -/
def step (s : State) : Host.Outcome State Fault Refusal :=
  match s.st with
  | .halted => .fault .engineHalted
  | .faulted => .fault .engineFaulted
  | .running =>
    match s.fetch with
    | .error c => s.takeFault c
    | .ok w =>
      match decode w with
      | .error c => s.takeFault c
      | .ok i => exec i s

/-- s with the instruction whose table bits are w as the next one fetched (log entry 3). -/
def State.withFetchWord (s : State) (nbits w : Nat) : State :=
  s.placeWord (BitVec.ofNat 32 (w % 2 ^ nbits))

end Sys2Proof.Machine
end

