-- ==== Sys2Proof/Machine/Status.lean ====
section
/-! DEFINITION. The status output: the engine state and the fault record as the host reads them
(00_scope.md R10, 10_state.md R24, R25, 60_exceptions.md R181). No program reads any of it. -/

namespace Sys2Proof.Machine

/-- The status code of the engine state (10_state.md R24). -/
def EngineState.code : EngineState → Nat
  | .running => 0
  | .halted => 1
  | .faulted => 2

/-- The fault code (60_exceptions.md R181). -/
def FaultCause.code : FaultCause → Nat
  | .unmappedSegment _ => 0x1
  | .offsetOutOfBounds _ _ _ => 0x2
  | .unmapSegmentZero => 0x3
  | .pcOutOfBounds _ _ => 0x4
  | .divideByZero _ => 0x5
  | .unrecognizedOpcode _ => 0x6
  | .outputRange _ => 0x7
  | .segmentIds _ => 0x8
  | .capacity _ => 0x9
  | .bitFieldOverflow _ _ _ => 0xA

/-- The values the record's info holds, in the order of the table's last column (60_exceptions.md
R181); for the codec's failure those of width, lsb and value that the operation has. -/
def FaultCause.info : FaultCause → List Int
  | .unmappedSegment id => [id.toNat]
  | .offsetOutOfBounds id offset length => [id.toNat, offset.toNat, length]
  | .unmapSegmentZero => []
  | .pcOutOfBounds pc length => [pc.toNat, length]
  | .divideByZero dividend => [dividend.toNat]
  | .unrecognizedOpcode op => [op]
  | .outputRange value => [value.toNat]
  | .segmentIds next => [next.toNat]
  | .capacity requested => [requested]
  | .bitFieldOverflow width lsb value => (width : Int) :: (lsb.map Int.ofNat).toList ++ value.toList

/-- The fault record as the status output shows it: code, fpc, word, info (10_state.md R25). -/
structure FaultStatus where
  code : Nat
  fpc : Word
  word : Option Word
  info : List Int
deriving DecidableEq, Repr

/-- The status output (00_scope.md R10). -/
structure StatusOutput where
  state : Nat
  fault : Option FaultStatus
deriving DecidableEq, Repr

/-- What the block's status output shows (00_scope.md R10). -/
def State.statusOutput (s : State) : StatusOutput :=
  ⟨s.st.code, s.fr.map fun r => ⟨r.cause.code, r.fpc, r.word, r.cause.info⟩⟩

/-- An input request is outstanding: the engine is Running at an IN the host has not answered
(10_state.md R24, 44_io_port.md R161). It is no field of the state (10_state.md R35): it is read off
it. -/
def State.inputRequested (s : State) : Bool :=
  decide (s.st = .running) &&
    match s.fetch with
    | .error _ => false
    | .ok w =>
      match decode w with
      | .ok (.inp _) => s.input.isNone
      | _ => false

end Sys2Proof.Machine
end

