-- ==== Sys2Proof/Machine/Launch.lean ====
section
/-! DEFINITION. Launch: the block's only reset (70_reset_and_hazards.md R210 to R212), and what the
host may do beside the engine's steps (44_io_port.md R161, R165). -/

namespace Sys2Proof.Machine

/-- The program image as the loader hands it over (R212). -/
inductive ImageSource where
  | unreadable
  | bytes (bs : List Byte)
deriving DecidableEq, Repr

/-- Why a launch is refused: ProgramLoadError (R212). -/
inductive LaunchError where
  | unreadable
  | notWholeWords (bytes : Nat)
  | tooLong (words : Nat)
  | overCapacity (words : Nat)
deriving DecidableEq, Repr

/-- The status code of a refused launch (R212, decision D5). -/
def LaunchError.code : LaunchError → Nat
  | .unreadable | .notWholeWords _ | .tooLong _ | .overCapacity _ => 0xB

/-- The image's words, big-endian: P[k] = b[4k] ‖ b[4k+1] ‖ b[4k+2] ‖ b[4k+3] (R212). Bytes after the
last whole word are dropped; a launch refuses an image that has any. -/
def wordsOfImage : List Byte → List Word
  | b0 :: b1 :: b2 :: b3 :: rest => wordOfBytes b0 b1 b2 b3 :: wordsOfImage rest
  | _ => []

/-- The state after a launch with program P (R211). -/
def State.launched (P : List Word) (params : Params) (input : InputRest) : State where
  regs := Vector.replicate 8 0#32
  pc := 0#32
  st := .running
  fr := none
  seg := [(0, Segment.ofWords P)]
  pool := []
  next := 1#32
  out := []
  inRest := input
  eos := false
  params := params

/-- Launch (R210, R212): the checked image becomes segment 0 and every piece of state takes its
reset value, or the launch is refused and no step is ever taken. -/
def launch (img : ImageSource) (params : Params) (input : InputRest) : Except LaunchError State :=
  match img with
  | .unreadable => .error .unreadable
  | .bytes bs =>
    if bs.length % 4 ≠ 0 then .error (.notWholeWords bs.length)
    else if bs.length / 4 > 2 ^ 32 - 1 then .error (.tooLong (bs.length / 4))
    else if bs.length / 4 > params.memCapacityWords then .error (.overCapacity (bs.length / 4))
    else .ok (State.launched (wordsOfImage bs) params input)

/-- An INPUT_STREAM that is finite: these bytes, then end-of-stream (00_scope.md R12). -/
def finiteStream (bs : List Byte) : InputRest := ⟨bs, .closed⟩

/-- An INPUT_STREAM the model knows nothing about (00_scope.md R12, decision D24; log entry 1). -/
def freeStream : InputRest := ⟨[], .host 0⟩

/-- The host answers later than the launch: a byte becomes available on an open stream (R161). The
stream of a launch that is closed or free is already settled, and nothing changes. -/
def State.hostSend (s : State) (b : Byte) : State :=
  match s.inRest.tail with
  | .awaiting => { s with inRest := ⟨s.inRest.bytes ++ [b], .awaiting⟩ }
  | .closed | .host _ => s

/-- The host closes an open stream: end-of-stream after the bytes already sent (R161). -/
def State.hostClose (s : State) : State :=
  match s.inRest.tail with
  | .awaiting => { s with inRest := ⟨s.inRest.bytes, .closed⟩ }
  | .closed | .host _ => s

end Sys2Proof.Machine
end

