-- ==== Sys2Proof/Safety.lean ====
section
/-! DEFINITION. What a run is, when it is safe, what the host may rely on, and the invariants of the
state, in the words claims use. -/

namespace Sys2Proof.Machine

/-- A segment ID is mapped (00_scope.md R19). -/
abbrev State.mapped (s : State) (id : Word) : Prop := s.seg.find id ≠ none

/-- The memory manager's invariants (10_state.md R29), with what they rest on: the canonical form of
memory, and a counter that has not passed ID_MAX + 1 (20_memory.md R44). -/
structure State.ManagerInv (s : State) : Prop where
  memory : s.seg.wf
  /-- `seg[0]` is defined. -/
  zeroMapped : s.mapped 0#32
  /-- Every mapped ID other than 0 is in 1 .. next-1. -/
  mappedBelow : ∀ id : Word, s.mapped id → id ≠ 0#32 → id.toNat < s.next.toNat
  /-- A listed ID is a Word. -/
  idsAreWords : ∀ e ∈ s.seg, e.1 < 2 ^ 32
  /-- Every ID in the pool is in 1 .. next-1 … -/
  poolRange : ∀ id ∈ s.pool, id ≠ 0#32 ∧ id.toNat < s.next.toNat
  /-- … is not mapped … -/
  poolUnmapped : ∀ id ∈ s.pool, ¬ s.mapped id
  /-- … and occurs in the pool once. -/
  poolOnce : s.pool.Nodup
  /-- Every ID in 1 .. next-1 is either mapped or in the pool. -/
  accounted : ∀ id : Word, id ≠ 0#32 → id.toNat < s.next.toNat → s.mapped id ∨ id ∈ s.pool
  /-- The mapped words are within MEM_CAPACITY_WORDS. -/
  withinCapacity : s.seg.used ≤ s.params.memCapacityWords
  /-- The counter starts at 1 and never passes ID_MAX + 1, which is a Word. -/
  counterPos : 1 ≤ s.next.toNat
  counterBound : s.next.toNat ≤ s.params.idMax.toNat + 1
  idMaxBound : s.params.idMax.toNat < 2 ^ 32 - 1

/-- The engine's and the port's invariants: a fault record stands exactly in a Faulted engine
(10_state.md R25), and after a delivered end-of-stream nothing remains of the input (44_io_port.md
R161). -/
structure State.EngineInv (s : State) : Prop where
  recordIffFaulted : s.fr.isSome = true ↔ s.st = .faulted
  eosMeansClosed : s.eos = true → s.inRest = ⟨[], .closed⟩

/-- The state's invariant. -/
structure State.Inv (s : State) : Prop where
  manager : s.ManagerInv
  engine : s.EngineInv

/-! ### Encodings as bit slices (30_encoding.md R62, R63) -/

/-- The register that w[lsb+2:lsb] names. -/
def sliceReg (w : Word) (lsb : Nat) : Reg := (w.extractLsb' lsb 3).toFin

/-- Every word with this opcode in bits [31:28] decodes to f of the registers at [8:6], [5:3] and
[2:0], whatever its other bits hold: the three-register form (R62, R65). -/
def EncodedAsABC (op : Nat) (f : Reg → Reg → Reg → Instr) : Prop :=
  ∀ w : Word, (w.extractLsb' 28 4).toNat = op →
    decode w = .ok (f (sliceReg w 6) (sliceReg w 3) (sliceReg w 0))

/-- Every word with this opcode decodes to f of the register at [27:25] and the 25 bits [24:0],
zero-extended: the immediate form (R63, R67). -/
def EncodedAsImm (op : Nat) (f : Reg → Word → Instr) : Prop :=
  ∀ w : Word, (w.extractLsb' 28 4).toNat = op →
    decode w = .ok (f (sliceReg w 25) ((w.extractLsb' 0 25).setWidth 32))

/-! ### Which registers an instruction reads and writes (10_state.md R21) -/

/-- The registers an instruction reads. -/
def reads : Instr → List Reg
  | .cmov _ b c | .sload _ b c | .add _ b c | .mul _ b c | .div _ b c | .nand _ b c => [b, c]
  | .sstore a b c => [a, b, c]
  | .map _ c | .unmap c | .out c => [c]
  | .loadp b c => [b, c]
  | .halt | .inp _ | .lv _ _ | .illegal14 | .illegal15 => []

/-- The registers an instruction may write. -/
def writes : Instr → List Reg
  | .cmov a _ _ | .sload a _ _ | .add a _ _ | .mul a _ _ | .div a _ _ | .nand a _ _ | .lv a _ => [a]
  | .map b _ => [b]
  | .inp c => [c]
  | .sstore _ _ _ | .unmap _ | .out _ | .loadp _ _ | .halt | .illegal14 | .illegal15 => []

/-- How many of the low bits of a word an instruction with this opcode reads beside [31:28]
(30_encoding.md R62, R63, R65): every other bit is ignored. -/
def usedLowBits (op : Nat) : Nat :=
  if op ≤ 6 then 9
  else if op = 8 ∨ op = 12 then 6
  else if op = 9 ∨ op = 10 ∨ op = 11 then 3
  else if op = 13 then 28
  else 0

/-- The opcodes whose instructions may raise a fault of this code, the fetch apart (60_exceptions.md
R181, "raised by"). -/
def raisedBy (code : Nat) : List Nat :=
  match code with
  | 0x1 => [1, 2, 9, 12]
  | 0x2 => [1, 2]
  | 0x3 => [9]
  | 0x5 => [5]
  | 0x6 => [14, 15]
  | 0x7 => [10]
  | 0x8 => [8]
  | 0x9 => [8, 12]
  | _ => []

/-! ### Frames -/

/-- t is s but for register a, which holds v, and for pc, which is the next index: every other
register, every word of memory and every other piece of state is unchanged. -/
structure State.WroteOnly (s t : State) (a : Reg) (v : Word) : Prop where
  value : t.reg a = v
  others : ∀ r, r ≠ a → t.reg r = s.reg r
  memory : ∀ id o, t.seg.read id o = s.seg.read id o
  rest : t = { s with regs := t.regs, pc := s.pc + 1#32 }

/-- t is s after MAP gave register b the ID of a new segment of n zero words: every other register and
every word of every other segment is unchanged, and so is every other piece of state but the pool and
the counter, of which the statement that uses this says more. -/
structure State.MappedNew (s t : State) (b : Reg) (id : Word) (n : Nat) : Prop where
  value : t.reg b = id
  others : ∀ r, r ≠ b → t.reg r = s.reg r
  zeros : ∀ o : Word,
    t.seg.read id o = if o.toNat < n then .ok 0#32 else .error (.offsetOutOfBounds id o n)
  memory : ∀ id' o, id' ≠ id → t.seg.read id' o = s.seg.read id' o
  rest : t = { s with regs := t.regs, pc := s.pc + 1#32, seg := t.seg, pool := t.pool,
                      next := t.next }

/-- t is s after a fault with this cause (43_engine_control.md R142): Faulted, the record written with
the faulting index and the word there (none where the fetch itself failed), and nothing else changed,
pc included. -/
structure State.FaultedWith (s t : State) (c : FaultCause) : Prop where
  faulted : t.st = .faulted
  record : ∃ word : Option Word, t.fr = some ⟨c, s.pc, word⟩ ∧
    ∀ w, word = some w ↔ s.seg.read 0#32 s.pc = .ok w
  kept : t = { s with st := t.st, fr := t.fr }

/-! ### Runs -/

/-- One step leads from s to t. -/
def StepsTo (s t : State) : Prop := step s = .next t

/-- t is reached from s by steps alone (43_engine_control.md R143). -/
inductive Reaches (s : State) : State → Prop where
  | refl : Reaches s s
  | tail {t u : State} (h : Reaches s t) (hs : StepsTo t u) : Reaches s u

/-- A safe state: no fault has ended the run (70_reset_and_hazards.md R215). -/
abbrev State.Safe (s : State) : Prop := s.st ≠ .faulted

/-- A finished run (43_engine_control.md R152). Its result is `out` and nothing else. -/
abbrev State.Finished (s : State) : Prop := s.st = .halted

/-- What the host may have received of the output (44_io_port.md R164): all of it, but for a faulted
run, of which a claim may rely only on some initial part having arrived (log entry 8). -/
def State.hostReceived (s : State) (bs : List Byte) : Prop :=
  match s.st with
  | .running | .halted => bs = s.out
  | .faulted => bs <+: s.out

end Sys2Proof.Machine
end

