-- ==== Sys2Proof/Certificates/Slice0/Obligations.lean ====
section
/-! DEFINITION. The statements for the provers: what the spec's rules say of the machine. -/

open Sys2Proof Sys2Proof.Machine

/-! ### Encoding (30_encoding.md) -/

/-- Decoding the assembled word of a well-formed instruction gives it back, with every operand at
every value (R62, R63, R67, R70). -/
def Obligations.DecodeOfEncodeIsTheInstruction : Prop :=
  ∀ i : Instr, i.WellFormed → decode (encode i) = .ok i

/-- R69: the decoder is total; bits [31:28] alone choose the instruction, and opcodes 14 and 15 raise
UnrecognizedOpcode when executed. -/
def Obligations.EveryWordDecodesByItsOpcode : Prop :=
  ∀ w : Word, ∃ i, decode w = .ok i ∧ i.WellFormed ∧
    i.opcode = (w.extractLsb' 28 4).toNat ∧
    (14 ≤ i.opcode → ∀ s, ∃ t, exec i s = .next t ∧
      s.FaultedWith t (.unrecognizedOpcode i.opcode))

/-- R65: bits that no operand field of the opcode uses change nothing, and none of their values makes
a word fail to decode. -/
def Obligations.IgnoredBitsChangeNothing : Prop :=
  ∀ w w' : Word, w.extractLsb' 28 4 = w'.extractLsb' 28 4 →
    (∀ k < usedLowBits (w.extractLsb' 28 4).toNat, w.getLsbD k = w'.getLsbD k) →
    ∃ i, decode w = .ok i ∧ decode w' = .ok i

/-- R72: the decoding examples. -/
def Obligations.ExampleWordsDecode : Prop :=
  decode 0x300000CA#32 = .ok (.add 3 1 2) ∧ decode 0xD2000030#32 = .ok (.lv 1 48#32) ∧
    decode 0x3FFFFECA#32 = .ok (.add 3 1 2) ∧ decode 0xE0000000#32 = .ok .illegal14

/-! ### Register operations (41_register_ops.md) -/

/-- R100: CMOV. -/
def Obligations.CmovMovesIfConditionNonzero : Prop :=
  EncodedAsABC 0 .cmov ∧ ∀ (a b c : Reg) (s : State),
    (s.reg c ≠ 0#32 → ∃ t, exec (.cmov a b c) s = .next t ∧ s.WroteOnly t a (s.reg b)) ∧
    (s.reg c = 0#32 → ∃ t, exec (.cmov a b c) s = .next t ∧ s.WroteOnly t a (s.reg a))

/-- R101: ADD, modulo 2^32; it never faults. -/
def Obligations.AddIsSumModWord : Prop :=
  EncodedAsABC 3 .add ∧ ∀ (a b c : Reg) (s : State), ∃ t v,
    exec (.add a b c) s = .next t ∧
    v.toNat = ((s.reg b).toNat + (s.reg c).toNat) % 2 ^ 32 ∧ s.WroteOnly t a v

/-- R102: MUL, modulo 2^32; it never faults. -/
def Obligations.MulIsProductModWord : Prop :=
  EncodedAsABC 4 .mul ∧ ∀ (a b c : Reg) (s : State), ∃ t v,
    exec (.mul a b c) s = .next t ∧
    v.toNat = (s.reg b).toNat * (s.reg c).toNat % 2 ^ 32 ∧ s.WroteOnly t a v

/-- R103, R108: DIV gives the floor quotient, and faults on a zero divisor with nothing written. -/
def Obligations.DivIsFloorQuotientOrFault : Prop :=
  EncodedAsABC 5 .div ∧ ∀ (a b c : Reg) (s : State),
    (s.reg c ≠ 0#32 → ∃ t q, exec (.div a b c) s = .next t ∧
      q.toNat * (s.reg c).toNat ≤ (s.reg b).toNat ∧
      (s.reg b).toNat < (q.toNat + 1) * (s.reg c).toNat ∧ q.toNat ≤ (s.reg b).toNat ∧
      s.WroteOnly t a q) ∧
    (s.reg c = 0#32 → ∃ t, exec (.div a b c) s = .next t ∧
      s.FaultedWith t (.divideByZero (s.reg b)))

/-- R104: NAND, bit by bit. -/
def Obligations.NandIsBitwiseNotAnd : Prop :=
  EncodedAsABC 6 .nand ∧ ∀ (a b c : Reg) (s : State), ∃ t v,
    exec (.nand a b c) s = .next t ∧
    (∀ k < 32, v.getLsbD k = !((s.reg b).getLsbD k && (s.reg c).getLsbD k)) ∧ s.WroteOnly t a v

/-- R105: LV writes the 25-bit immediate, zero-extended. -/
def Obligations.LvWritesZeroExtendedImmediate : Prop :=
  EncodedAsImm 13 .lv ∧ ∀ (a : Reg) (imm : Word) (s : State), ∃ t v,
    exec (.lv a imm) s = .next t ∧ v.toNat = imm.toNat % 2 ^ 25 ∧ s.WroteOnly t a v

/-! ### Memory instructions (42_memory_ops.md, 20_memory.md) -/

/-- R120: SLOAD. -/
def Obligations.SloadReadsTheWordOrFaults : Prop :=
  EncodedAsABC 1 .sload ∧ ∀ (a b c : Reg) (s : State),
    (∀ g, s.seg.find (s.reg b) = some g → (s.reg c).toNat < g.length →
      ∃ t, exec (.sload a b c) s = .next t ∧ s.WroteOnly t a (g.get (s.reg c).toNat)) ∧
    (s.seg.find (s.reg b) = none → ∃ t, exec (.sload a b c) s = .next t ∧
      s.FaultedWith t (.unmappedSegment (s.reg b))) ∧
    (∀ g, s.seg.find (s.reg b) = some g → g.length ≤ (s.reg c).toNat →
      ∃ t, exec (.sload a b c) s = .next t ∧
        s.FaultedWith t (.offsetOutOfBounds (s.reg b) (s.reg c) g.length))

/-- R121: SSTORE writes the one word ⟨x[A], x[B]⟩ and changes no other word, length or register. -/
def Obligations.SstoreWritesTheWordOrFaults : Prop :=
  EncodedAsABC 2 .sstore ∧ ∀ (a b c : Reg) (s : State),
    (∀ g, s.seg.find (s.reg a) = some g → (s.reg b).toNat < g.length →
      ∃ t, exec (.sstore a b c) s = .next t ∧
        t.seg.read (s.reg a) (s.reg b) = .ok (s.reg c) ∧
        (∀ id o, ¬(id = s.reg a ∧ o = s.reg b) → t.seg.read id o = s.seg.read id o) ∧
        (∀ id, (t.seg.find id).map Segment.length = (s.seg.find id).map Segment.length) ∧
        t = { s with seg := t.seg, pc := s.pc + 1#32 }) ∧
    (s.seg.find (s.reg a) = none → ∃ t, exec (.sstore a b c) s = .next t ∧
      s.FaultedWith t (.unmappedSegment (s.reg a))) ∧
    (∀ g, s.seg.find (s.reg a) = some g → g.length ≤ (s.reg b).toNat →
      ∃ t, exec (.sstore a b c) s = .next t ∧
        s.FaultedWith t (.offsetOutOfBounds (s.reg a) (s.reg b) g.length))

/-- R122, R44: MAP takes the most recently freed ID, else mints the counter's; the two ways it
faults. The capacity and ID_MAX are parameters, here arbitrary. -/
def Obligations.MapReusesOrMintsOrFaults : Prop :=
  EncodedAsABC 8 (fun _ b c => .map b c) ∧ ∀ (b c : Reg) (s : State),
    (∀ id rest, s.pool = id :: rest →
      s.seg.used + (s.reg c).toNat ≤ s.params.memCapacityWords →
      ∃ t, exec (.map b c) s = .next t ∧ s.MappedNew t b id (s.reg c).toNat ∧
        t.pool = rest ∧ t.next = s.next) ∧
    (s.pool = [] → s.next.toNat ≤ s.params.idMax.toNat →
      s.seg.used + (s.reg c).toNat ≤ s.params.memCapacityWords →
      ∃ t, exec (.map b c) s = .next t ∧ s.MappedNew t b s.next (s.reg c).toNat ∧
        t.pool = [] ∧ t.next = s.next + 1#32) ∧
    (s.pool = [] → s.params.idMax.toNat < s.next.toNat →
      ∃ t, exec (.map b c) s = .next t ∧ s.FaultedWith t (.segmentIds s.next)) ∧
    (s.pool ≠ [] ∨ s.next.toNat ≤ s.params.idMax.toNat →
      s.params.memCapacityWords < s.seg.used + (s.reg c).toNat →
      ∃ t, exec (.map b c) s = .next t ∧ s.FaultedWith t (.capacity (s.reg c).toNat))

/-- R123, R46: UNMAP releases the segment and pushes its ID. -/
def Obligations.UnmapReleasesOrFaults : Prop :=
  EncodedAsABC 9 (fun _ _ c => .unmap c) ∧ ∀ (c : Reg) (s : State),
    (s.reg c ≠ 0#32 → s.mapped (s.reg c) → ∃ t, exec (.unmap c) s = .next t ∧
      (∀ o, t.seg.read (s.reg c) o = .error (.unmappedSegment (s.reg c))) ∧
      (∀ id o, id ≠ s.reg c → t.seg.read id o = s.seg.read id o) ∧
      t = { s with seg := t.seg, pool := s.reg c :: s.pool, pc := s.pc + 1#32 }) ∧
    (s.reg c = 0#32 → ∃ t, exec (.unmap c) s = .next t ∧
      s.FaultedWith t .unmapSegmentZero) ∧
    (s.reg c ≠ 0#32 → ¬ s.mapped (s.reg c) → ∃ t, exec (.unmap c) s = .next t ∧
      s.FaultedWith t (.unmappedSegment (s.reg c)))

/-- R126: a stored word loads back, through the same registers. -/
def Obligations.StoreThenLoadGivesTheStoredWord : Prop :=
  ∀ (a b c d : Reg) (s : State) (g : Segment), s.seg.find (s.reg a) = some g →
    (s.reg b).toNat < g.length →
    ∃ t u, exec (.sstore a b c) s = .next t ∧ exec (.sload d a b) t = .next u ∧
      u.st = s.st ∧ u.reg d = s.reg c

/-- R45: in every state the invariant holds of, the ID a MAP returns is not 0 and was not mapped, and
names a zero-filled segment of the new length. -/
def Obligations.MapReturnsAFreshId : Prop :=
  ∀ (b c : Reg) (s t : State), s.Inv → s.st = .running → exec (.map b c) s = .next t →
    t.st ≠ .faulted → t.reg b ≠ 0#32 ∧ ¬ s.mapped (t.reg b) ∧
      t.seg.find (t.reg b) = some (Segment.zeros (s.reg c).toNat)

/-- R124: UNMAP p, then UNMAP q, then three MAPs: they return q, then p, then (the pool being empty)
the counter. -/
def Obligations.FreedIdsAreReusedLastFirst : Prop :=
  ∀ (p q b1 b2 b3 c : Reg) (s : State), s.pool = [] → s.reg p ≠ s.reg q →
    s.reg p ≠ 0#32 → s.reg q ≠ 0#32 → s.mapped (s.reg p) → s.mapped (s.reg q) →
    c ≠ b1 → c ≠ b2 → s.next.toNat ≤ s.params.idMax.toNat →
    s.seg.used + 3 * (s.reg c).toNat ≤ s.params.memCapacityWords →
    ∃ t1 t2 t3 t4 t5, exec (.unmap p) s = .next t1 ∧ exec (.unmap q) t1 = .next t2 ∧
      exec (.map b1 c) t2 = .next t3 ∧ exec (.map b2 c) t3 = .next t4 ∧
      exec (.map b3 c) t4 = .next t5 ∧ t3.reg b1 = s.reg q ∧ t4.reg b2 = s.reg p ∧
      t5.reg b3 = s.next ∧ t5.pool = [] ∧ t5.next = s.next + 1#32 ∧ t5.st = s.st

/-! ### Engine control (43_engine_control.md) -/

/-- R146: HALT, and nothing but HALT, leads to Halted; nothing else changes. (What the registers and
the memory hold after a halt is unobservable, 20_memory.md R49; log entry 7.) -/
def Obligations.HaltAndOnlyHaltHalts : Prop :=
  (∀ w : Word, (w.extractLsb' 28 4).toNat = 7 → decode w = .ok .halt) ∧
  (∀ s : State, ∃ t, exec .halt s = .next t ∧
    t = { s with st := .halted, pc := s.pc + 1#32 }) ∧
  (∀ s t : State, step s = .next t → t.st = .halted →
    ∃ w, s.seg.read 0#32 s.pc = .ok w ∧ (w.extractLsb' 28 4).toNat = 7)

/-- R148, R47: LOADP jumps; with x[B] ≠ 0 it first makes segment 0 a copy of segment x[B], which
stays as it is. -/
def Obligations.LoadpJumpsOrCopiesOrFaults : Prop :=
  EncodedAsABC 12 (fun _ b c => .loadp b c) ∧ ∀ (b c : Reg) (s : State),
    (s.reg b = 0#32 → ∃ t, exec (.loadp b c) s = .next t ∧ t = { s with pc := s.reg c }) ∧
    (∀ g, s.reg b ≠ 0#32 → s.seg.find (s.reg b) = some g →
      s.seg.used - s.seg.programLength + g.length ≤ s.params.memCapacityWords →
      ∃ t, exec (.loadp b c) s = .next t ∧ t.seg.find 0#32 = some g ∧
        (∀ o v, t.seg.read 0#32 o = .ok v ↔ s.seg.read (s.reg b) o = .ok v) ∧
        (∀ id o, id ≠ 0#32 → t.seg.read id o = s.seg.read id o) ∧
        t = { s with seg := t.seg, pc := s.reg c }) ∧
    (s.reg b ≠ 0#32 → ¬ s.mapped (s.reg b) → ∃ t, exec (.loadp b c) s = .next t ∧
      s.FaultedWith t (.unmappedSegment (s.reg b))) ∧
    (∀ g, s.reg b ≠ 0#32 → s.seg.find (s.reg b) = some g →
      s.params.memCapacityWords < s.seg.used - s.seg.programLength + g.length →
      ∃ t, exec (.loadp b c) s = .next t ∧ s.FaultedWith t (.capacity g.length))

/-- R150: opcodes 14 and 15. -/
def Obligations.IllegalOpcodesFault : Prop :=
  (∀ w : Word, (w.extractLsb' 28 4).toNat = 14 → decode w = .ok .illegal14) ∧
  (∀ w : Word, (w.extractLsb' 28 4).toNat = 15 → decode w = .ok .illegal15) ∧
  ∀ s : State,
    (∃ t, exec .illegal14 s = .next t ∧ s.FaultedWith t (.unrecognizedOpcode 14)) ∧
    (∃ t, exec .illegal15 s = .next t ∧ s.FaultedWith t (.unrecognizedOpcode 15))

/-! ### The I/O port (44_io_port.md) -/

/-- R162: OUT appends the byte, or faults above 255 with no byte output. -/
def Obligations.OutEmitsTheByteOrFaults : Prop :=
  EncodedAsABC 10 (fun _ _ c => .out c) ∧ ∀ (c : Reg) (s : State),
    ((s.reg c).toNat ≤ 255 → ∃ t b, exec (.out c) s = .next t ∧
      b.toNat = (s.reg c).toNat ∧ t = { s with out := s.out ++ [b], pc := s.pc + 1#32 }) ∧
    (255 < (s.reg c).toNat → ∃ t, exec (.out c) s = .next t ∧
      s.FaultedWith t (.outputRange (s.reg c)))

/-- R163, R161: IN takes the next byte; gives 0xFFFFFFFF at end-of-stream, and again ever after; while
the host has not answered, nothing changes. -/
def Obligations.InTakesTheByteOrTheSentinelOrWaits : Prop :=
  EncodedAsABC 11 (fun _ _ c => .inp c) ∧ ∀ (c : Reg) (s : State),
    (∀ b rest tail, s.eos = false → s.inRest = ⟨b :: rest, tail⟩ →
      ∃ t v, exec (.inp c) s = .next t ∧ v.toNat = b.toNat ∧
        { s with inRest := ⟨rest, tail⟩ }.WroteOnly t c v) ∧
    (s.eos = false → s.inRest = ⟨[], .closed⟩ → ∃ t, exec (.inp c) s = .next t ∧
      { s with eos := true }.WroteOnly t c 0xFFFFFFFF#32) ∧
    (s.eos = true → ∃ t, exec (.inp c) s = .next t ∧ s.WroteOnly t c 0xFFFFFFFF#32) ∧
    (s.eos = false → s.inRest = ⟨[], .awaiting⟩ → ∀ t, exec (.inp c) s = .next t → t = s)

/-- IN on a stream of which nothing is known (the model's form of the OPEN parameter INPUT_STREAM, log
entry 1): it completes whatever the host's free answer is. -/
def Obligations.InTakesTheHostsFreeAnswer : Prop :=
  ∀ (c : Reg) (s : State) (pos : Nat), s.eos = false → s.inRest = ⟨[], .host pos⟩ →
    ∃ t, exec (.inp c) s = .next t ∧
      match Config.hostAnswer pos with
      | some b => ∃ v, v.toNat = b.toNat ∧
          { s with inRest := ⟨[], .host (pos + 1)⟩ }.WroteOnly t c v
      | none => { s with inRest := ⟨[], .closed⟩, eos := true }.WroteOnly t c 0xFFFFFFFF#32

/-- R161, R193: a waiting engine is Running and keeps all its state; the host's byte or its closing of
the stream then completes the IN. That the wait is a step to the same state, and that a late answer is
an operation on the stream, is the model's form of "no byte yet, stream open" (log entry 5). -/
def Obligations.LateAnswerCompletesTheWaitingIn : Prop :=
  (∀ s : State, s.inputRequested = true → s.st = .running ∧ step s = .next s) ∧
  ∀ (c : Reg) (s : State), s.eos = false → s.inRest = ⟨[], .awaiting⟩ →
    (∀ b, ∃ t v, exec (.inp c) (s.hostSend b) = .next t ∧ v.toNat = b.toNat ∧
      s.WroteOnly t c v) ∧
    ∃ t, exec (.inp c) s.hostClose = .next t ∧
      { s with inRest := ⟨[], .closed⟩, eos := true }.WroteOnly t c 0xFFFFFFFF#32

/-! ### The step (43_engine_control.md, 10_state.md, 60_exceptions.md) -/

/-- R140, R141: a step of a Running engine whose fetch reads w runs exactly the instruction w decodes
to. Nothing is added around it: the meaning itself moves pc past the word (log entry 9). -/
def Obligations.StepRunsTheDecodedInstruction : Prop :=
  ∀ (s : State) (w : Word) (i : Instr), s.st = .running → s.seg.read 0#32 s.pc = .ok w →
    decode w = .ok i → step s = exec i s

/-- R43, R140: a fetch outside segment 0 faults, with no word recorded. -/
def Obligations.FetchOutsideTheProgramFaults : Prop :=
  ∀ (s : State) (g : Segment), s.st = .running → s.seg.find 0#32 = some g →
    g.length ≤ s.pc.toNat →
    ∃ t, step s = .next t ∧ s.FaultedWith t (.pcOutOfBounds s.pc g.length)

/-- R24, R185: a step is taken in every Running state and in no other. Two things here are the model's
own: of a waiting IN the spec says "no step; the engine waits" (R161), and that this wait is a step, to
the same state, is log entry 5; what step answers in Halted and Faulted is log entry 10. -/
def Obligations.StepsAreTakenExactlyWhileRunning : Prop :=
  (∀ s : State, (∃ t, step s = .next t) ↔ s.st = .running) ∧
  (∀ s : State, s.st = .halted → step s = .fault .engineHalted) ∧
  ∀ s : State, s.st = .faulted → step s = .fault .engineFaulted

/-- R180: a step that faults writes the record and commits nothing else, and no step follows; a step
that does not fault leaves the record as it was (R25). -/
def Obligations.FaultsCommitNothingAndAreFinal : Prop :=
  ∀ s t : State, step s = .next t →
    (t.st = .faulted → (∃ c, s.FaultedWith t c) ∧ step t = .fault .engineFaulted) ∧
    (t.st ≠ .faulted → t.fr = s.fr)

/-- R181: only the instructions the table lists raise each fault, PcOutOfBounds only a failing fetch,
and no step raises BitFieldOverflow (R95). -/
def Obligations.FaultsAreRaisedOnlyAsListed : Prop :=
  ∀ (s t : State) (r : FaultRecord), step s = .next t → t.st = .faulted → t.fr = some r →
    (r.cause.code = 0x4 ∧ r.word = none ∧ s.seg.programLength ≤ s.pc.toNat) ∨
    ∃ w, r.word = some w ∧ s.seg.read 0#32 s.pc = .ok w ∧
      (w.extractLsb' 28 4).toNat ∈ raisedBy r.cause.code

/-- R23: pc moves to the next index, but for LOADP, for a fault and for a waiting IN, which is a step in
the model (log entry 5). -/
def Obligations.PcMovesOnUnlessLoadpWaitOrFault : Prop :=
  ∀ (s t : State) (w : Word) (i : Instr), step s = .next t → s.seg.read 0#32 s.pc = .ok w →
    decode w = .ok i →
    (t.st = .faulted ∧ t.pc = s.pc) ∨ (∃ b c, i = .loadp b c ∧ t.pc = s.reg c) ∨
    (∃ c, i = .inp c ∧ t = s ∧ s.eos = false ∧ s.inRest = ⟨[], .awaiting⟩) ∨
    ((∀ b c, i ≠ .loadp b c) ∧ t.pc = s.pc + 1#32)

/-- R23: the fetch's increment never wraps. -/
def Obligations.PcIncrementNeverWraps : Prop :=
  ∀ (s : State) (w : Word), s.Inv → s.seg.read 0#32 s.pc = .ok w →
    (s.pc + 1#32).toNat = s.pc.toNat + 1

/-- R21: a register not listed as written is unchanged. -/
def Obligations.UnlistedRegistersAreUnchanged : Prop :=
  ∀ (i : Instr) (s t : State) (r : Reg), exec i s = .next t → r ∉ writes i → t.reg r = s.reg r

/-- R21: a register not listed as read has no influence: changing it beforehand changes nothing but
what that register itself may still hold. -/
def Obligations.UnreadRegistersHaveNoInfluence : Prop :=
  ∀ (i : Instr) (s t t' : State) (r : Reg) (v : Word), r ∉ reads i → exec i s = .next t →
    exec i (s.setReg r v) = .next t' →
    t' = { t with regs := t'.regs } ∧ ∀ q, q ≠ r → t'.reg q = t.reg q

/-- R30, R160: a step outputs nothing, or OUT appends its one byte; what was output stays. -/
def Obligations.OutputOnlyGrowsByOut : Prop :=
  ∀ s t : State, step s = .next t → t.out = s.out ∨
    ∃ w b, s.seg.read 0#32 s.pc = .ok w ∧ (w.extractLsb' 28 4).toNat = 10 ∧ t.out = s.out ++ [b]

/-- R28, R34: the ID counter never falls, and a step changes no parameter of the run. -/
def Obligations.CounterNeverFallsAndParametersStay : Prop :=
  ∀ s t : State, s.Inv → step s = .next t →
    s.next.toNat ≤ t.next.toNat ∧ t.params = s.params

/-- R26: a segment is never resized: what stays mapped keeps its length, but for segment 0 under
LOADP. -/
def Obligations.SegmentsAreNeverResized : Prop :=
  ∀ (s t : State) (id : Word) (g g' : Segment), s.Inv → step s = .next t →
    s.seg.find id = some g → t.seg.find id = some g' →
    (id = 0#32 → ∀ w, s.seg.read 0#32 s.pc = .ok w → (w.extractLsb' 28 4).toNat ≠ 12) →
    g'.length = g.length

/-- R40, R52: no instruction but SSTORE, MAP, UNMAP and LOADP changes any word of memory. -/
def Obligations.OtherInstructionsLeaveMemory : Prop :=
  ∀ (s t : State) (w : Word), step s = .next t → s.seg.read 0#32 s.pc = .ok w →
    (w.extractLsb' 28 4).toNat ∉ [2, 8, 9, 12] →
    ∀ id o, t.seg.read id o = s.seg.read id o

/-- R58: what an SSTORE writes into segment 0 is what the very next fetch of that index reads. -/
def Obligations.StoreIntoTheProgramIsFetchedNext : Prop :=
  ∀ (a b c : Reg) (s : State) (g : Segment) (i : Instr), s.st = .running →
    s.reg a = 0#32 → s.reg b = s.pc + 1#32 → s.seg.find 0#32 = some g →
    (s.reg b).toNat < g.length → decode (s.reg c) = .ok i →
    ∃ t, exec (.sstore a b c) s = .next t ∧ step t = exec i t

/-! ### Invariants (10_state.md R29) -/

/-- Every step keeps the canonical form of memory, whatever else holds of the state. -/
def Obligations.StepKeepsTheMemoryForm : Prop :=
  ∀ s t : State, s.seg.wf → step s = .next t → t.seg.wf

/-- Every step keeps the invariant. -/
def Obligations.StepKeepsTheStateInvariant : Prop :=
  ∀ s t : State, s.Inv → step s = .next t → t.Inv

/-- The state after reset meets the invariant. -/
def Obligations.ResetMeetsTheStateInvariant : Prop :=
  State.reset.Inv

/-- R29: after any accepted launch (with ID_MAX below 0xFFFFFFFF), the clauses of the rule hold in
every state the run reaches. -/
def Obligations.ManagerRulesHoldInEveryReachableState : Prop :=
  ∀ (img : ImageSource) (params : Params) (input : InputRest) (s t : State),
    launch img params input = .ok s → params.idMax.toNat < 2 ^ 32 - 1 → Reaches s t →
    t.mapped 0#32 ∧
    (∀ id : Word, t.mapped id → id ≠ 0#32 → id.toNat < t.next.toNat) ∧
    (∀ id ∈ t.pool, 1 ≤ id.toNat ∧ id.toNat < t.next.toNat ∧ ¬ t.mapped id) ∧ t.pool.Nodup ∧
    (∀ id : Word, 1 ≤ id.toNat → id.toNat < t.next.toNat → (t.mapped id ↔ id ∉ t.pool)) ∧
    t.seg.used ≤ params.memCapacityWords

/-! ### Launch (70_reset_and_hazards.md) -/

/-- R211: the value of every piece of state after a launch. -/
def Obligations.LaunchSetsEveryResetValue : Prop :=
  ∀ (bs : List Byte) (params : Params) (input : InputRest) (s : State),
    launch (.bytes bs) params input = .ok s →
    (∀ r, s.reg r = 0#32) ∧ s.pc = 0#32 ∧ s.st = .running ∧ s.fr = none ∧
    (∀ id, s.mapped id ↔ id = 0#32) ∧
    (∃ g, s.seg.find 0#32 = some g ∧ g.length = (wordsOfImage bs).length ∧
      ∀ k < g.length, (wordsOfImage bs)[k]? = some (g.get k)) ∧
    s.pool = [] ∧ s.next = 1#32 ∧ s.out = [] ∧ s.inRest = input ∧ s.eos = false

/-- R212: which images are refused, and the big-endian words of an accepted one. -/
def Obligations.LaunchRefusesOrLoadsBigEndianWords : Prop :=
  (∀ params input, ∃ e, launch .unreadable params input = .error e ∧ e.code = 0xB) ∧
  ∀ (bs : List Byte) (params : Params) (input : InputRest),
    ((bs.length % 4 ≠ 0 ∨ 2 ^ 32 - 1 < bs.length / 4 ∨
        params.memCapacityWords < bs.length / 4) →
      ∃ e, launch (.bytes bs) params input = .error e ∧ e.code = 0xB) ∧
    (bs.length % 4 = 0 → bs.length / 4 ≤ 2 ^ 32 - 1 →
      bs.length / 4 ≤ params.memCapacityWords →
      ∃ s g, launch (.bytes bs) params input = .ok s ∧ s.seg.find 0#32 = some g ∧
        g.length = bs.length / 4 ∧
        ∀ k < g.length, ∃ b0 b1 b2 b3 : Byte,
          bs[4 * k]? = some b0 ∧ bs[4 * k + 1]? = some b1 ∧
          bs[4 * k + 2]? = some b2 ∧ bs[4 * k + 3]? = some b3 ∧
          (g.get k).toNat =
            b0.toNat * 2 ^ 24 + b1.toNat * 2 ^ 16 + b2.toNat * 2 ^ 8 + b3.toNat) ∧
    (bs = [] → ∃ s t, launch (.bytes bs) params input = .ok s ∧ step s = .next t ∧
      s.FaultedWith t (.pcOutOfBounds 0#32 0))

/-! ### The bit-field codec (40_bitfield_codec.md) -/

/-- R81: the domain check of all six operations, applied first. -/
def Obligations.CodecChecksItsDomain : Prop :=
  (∀ (n : CodecWord) (width : Nat), 64 < width →
    (∃ v, Codec.fitsUnsigned n width = .error (.bitFieldOverflow width none v)) ∧
    ∃ v, Codec.fitsSigned n width = .error (.bitFieldOverflow width none v)) ∧
  ∀ (word value : CodecWord) (width lsb : Nat), 64 < width ∨ 64 < width + lsb →
    Codec.extractUnsigned word width lsb = .error (.bitFieldOverflow width (some lsb) none) ∧
    Codec.extractSigned word width lsb = .error (.bitFieldOverflow width (some lsb) none) ∧
    (∃ v, Codec.insertUnsigned word width lsb value =
      .error (.bitFieldOverflow width (some lsb) v)) ∧
    ∃ v, Codec.insertSigned word width lsb value =
      .error (.bitFieldOverflow width (some lsb) v)

/-- R83, R86: a fits check is true exactly of the values a field of that width can hold: the widened
value of some `width` bits, by zeros or by the sign. It fails above width 64. -/
def Obligations.FitsChecksDecideRepresentability : Prop :=
  ∀ (n : CodecWord) (width : Nat),
    (width ≤ 64 →
      (∃ b, Codec.fitsUnsigned n width = .ok b ∧
        (b = true ↔ n.toNat < 2 ^ width) ∧ (b = true ↔ ∃ f : BitVec width, n = f.setWidth 64)) ∧
      ∃ b, Codec.fitsSigned n width = .ok b ∧
        (b = true ↔ ∃ f : BitVec width, n = f.signExtend 64) ∧
        (0 < width → (b = true ↔
          -(2 : Int) ^ (width - 1) ≤ n.toInt ∧ n.toInt ≤ (2 : Int) ^ (width - 1) - 1)) ∧
        (width = 0 → (b = true ↔ n.toInt = 0))) ∧
    (64 < width →
      (∃ l v, Codec.fitsUnsigned n width = .error (.bitFieldOverflow width l v)) ∧
      ∃ l v, Codec.fitsSigned n width = .error (.bitFieldOverflow width l v))

/-- R84: extractUnsigned reads bits [lsb, lsb+width), zero-extended. -/
def Obligations.ExtractUnsignedReadsTheField : Prop :=
  ∀ (word : CodecWord) (width lsb : Nat),
    (width ≤ 64 → width + lsb ≤ 64 → ∃ r, Codec.extractUnsigned word width lsb = .ok r ∧
      r.toNat = word.toNat / 2 ^ lsb % 2 ^ width ∧
      ∀ k < 64, r.getLsbD k = (decide (k < width) && word.getLsbD (lsb + k))) ∧
    (64 < width ∨ 64 < width + lsb →
      ∃ l v, Codec.extractUnsigned word width lsb = .error (.bitFieldOverflow width l v))

/-- R85: extractSigned reads the same field in two's complement, sign-extended. -/
def Obligations.ExtractSignedReadsTheSignedField : Prop :=
  ∀ (word : CodecWord) (width lsb : Nat),
    (width ≤ 64 → width + lsb ≤ 64 → ∃ u r, Codec.extractUnsigned word width lsb = .ok u ∧
      Codec.extractSigned word width lsb = .ok r ∧
      r.toInt = (if width = 0 then 0
        else if 2 ^ (width - 1) ≤ u.toNat then (u.toNat : Int) - (2 : Int) ^ width
        else u.toNat) ∧
      r = (word.extractLsb' lsb width).signExtend 64) ∧
    (64 < width ∨ 64 < width + lsb →
      ∃ l v, Codec.extractSigned word width lsb = .error (.bitFieldOverflow width l v))

/-- R87: insertUnsigned replaces bits [lsb, lsb+width) by the value and keeps the others, or fails. -/
def Obligations.InsertUnsignedReplacesTheField : Prop :=
  ∀ (word value : CodecWord) (width lsb : Nat),
    (width ≤ 64 → width + lsb ≤ 64 → value.toNat < 2 ^ width →
      ∃ r, Codec.insertUnsigned word width lsb value = .ok r ∧
        r.toNat = word.toNat / 2 ^ (lsb + width) * 2 ^ (lsb + width) + value.toNat * 2 ^ lsb +
          word.toNat % 2 ^ lsb ∧
        ∀ k < 64, r.getLsbD k =
          if lsb ≤ k ∧ k < lsb + width then value.getLsbD (k - lsb) else word.getLsbD k) ∧
    (64 < width ∨ 64 < width + lsb ∨ 2 ^ width ≤ value.toNat →
      ∃ l v, Codec.insertUnsigned word width lsb value = .error (.bitFieldOverflow width l v))

/-- R88: insertSigned inserts the two's complement encoding, or fails. -/
def Obligations.InsertSignedInsertsTheEncoding : Prop :=
  ∀ (word value : CodecWord) (width lsb : Nat),
    (width ≤ 64 → width + lsb ≤ 64 → Codec.fitsSigned value width = .ok true →
      ∃ enc : CodecWord, (enc.toNat : Int) = value.toInt % (2 : Int) ^ width ∧
        Codec.insertSigned word width lsb value = Codec.insertUnsigned word width lsb enc ∧
        ∃ r, Codec.insertSigned word width lsb value = .ok r) ∧
    (64 < width ∨ 64 < width + lsb ∨ Codec.fitsSigned value width = .ok false →
      ∃ l v, Codec.insertSigned word width lsb value = .error (.bitFieldOverflow width l v))

/-- R90: a fitting value inserted is extracted again, and the bits outside the field are the
word's. -/
def Obligations.UnsignedInsertExtractRoundTrip : Prop :=
  ∀ (word value : CodecWord) (width lsb : Nat), width + lsb ≤ 64 →
    Codec.fitsUnsigned value width = .ok true →
    ∃ r, Codec.insertUnsigned word width lsb value = .ok r ∧
      Codec.extractUnsigned r width lsb = .ok value ∧
      ∀ k, (k < lsb ∨ lsb + width ≤ k) → r.getLsbD k = word.getLsbD k

/-- R91: the same for signed values. -/
def Obligations.SignedInsertExtractRoundTrip : Prop :=
  ∀ (word value : CodecWord) (width lsb : Nat), width + lsb ≤ 64 →
    Codec.fitsSigned value width = .ok true →
    ∃ r, Codec.insertSigned word width lsb value = .ok r ∧
      Codec.extractSigned r width lsb = .ok value ∧
      ∀ k, (k < lsb ∨ lsb + width ≤ k) → r.getLsbD k = word.getLsbD k
end

