-- ==== Sys2Proof/Laws/Decode.lean ====
section
/-! SUPPORT. The codec's extract inside its domain, and the decoder's fields as exact divisions. -/

namespace Sys2Proof

open Machine

theorem fieldValue_lt (word : CodecWord) {width lsb : Nat} (h : width ≤ 64) :
    Codec.fieldValue word width lsb < 2 ^ 64 :=
  lt_of_lt_of_le (Nat.mod_lt _ (by positivity)) (Nat.pow_le_pow_right (by decide) h)

theorem extractUnsigned_ok (word : CodecWord) {width lsb : Nat} (h : width + lsb ≤ 64) :
    Codec.extractUnsigned word width lsb =
      .ok (BitVec.ofNat 64 (Codec.fieldValue word width lsb)) := by
  have : Codec.inDomain width lsb = true := by simp [Codec.inDomain]; omega
  simp [Codec.extractUnsigned, this]

/-- A field of an instruction word is its exact value: the codec never fails here (40_bitfield_codec.md
R95). -/
theorem fieldOf_ok (w : Word) {width lsb : Nat} (h : width + lsb ≤ 64) :
    fieldOf w width lsb = .ok (w.toNat / 2 ^ lsb % 2 ^ width) := by
  have hw : (w.setWidth 64).toNat = w.toNat :=
    BitVec.toNat_setWidth_of_le (by decide)
  have hl := fieldValue_lt (w.setWidth 64) (lsb := lsb) (show width ≤ 64 by omega)
  unfold fieldOf
  rw [extractUnsigned_ok _ h]
  simp only [Except.map, BitVec.toNat_ofNat, Nat.mod_eq_of_lt hl]
  rw [Codec.fieldValue, hw]

theorem regField_ok (w : Word) {lsb : Nat} (h : 3 + lsb ≤ 64) :
    regField w lsb = .ok (Fin.ofNat 8 (w.toNat / 2 ^ lsb)) := by
  unfold regField
  rw [fieldOf_ok w h]
  simp [Except.map, Fin.ofNat]

theorem withABC_ok (w : Word) (f : Reg → Reg → Reg → Instr) :
    withABC w f = .ok (f (Fin.ofNat 8 (w.toNat / 2 ^ 6)) (Fin.ofNat 8 (w.toNat / 2 ^ 3))
      (Fin.ofNat 8 w.toNat)) := by
  unfold withABC
  rw [regField_ok w (by decide), regField_ok w (by decide), regField_ok w (by decide)]
  simp [bind, Except.bind, pure, Except.pure]

theorem withImm_ok (w : Word) (f : Reg → Word → Instr) :
    withImm w f = .ok (f (Fin.ofNat 8 (w.toNat / 2 ^ 25)) (BitVec.ofNat 32 (w.toNat % 2 ^ 25))) := by
  unfold withImm
  rw [regField_ok w (by decide), fieldOf_ok w (by decide)]
  simp [bind, Except.bind, pure, Except.pure]

/-- Decoding is the opcode's row on the word. -/
theorem decode_eq (w : Word) : decode w = decodeOp w (Fin.ofNat 16 (w.toNat / 2 ^ 28)) := by
  unfold decode
  rw [fieldOf_ok w (by decide)]
  simp only [bind, Except.bind]
  congr 1
  simp [Fin.ofNat]

/-- Decoding with the opcode known. -/
theorem decode_of_opcode {w : Word} {k : Nat} (hk : k < 16) (h : w.toNat / 2 ^ 28 = k) :
    decode w = decodeOp w ⟨k, hk⟩ := by
  rw [decode_eq]
  congr 1
  simp only [Fin.ofNat, Fin.ext_iff]
  omega

end Sys2Proof
end

