-- ==== Sys2Proof/Laws/Table.lean ====
section
/-! SUPPORT. Sorted tables: reading after a write, and that writes keep the key order. -/

namespace Sys2Proof.Machine

variable {α : Type} {k j : Nat} {v u : α} {t : List (Nat × α)} {e : Nat × α}

theorem keysRise_nil : keysRise ([] : List (Nat × α)) := List.Pairwise.nil

theorem keysRise_cons : keysRise (e :: t) ↔ (∀ d ∈ t, e.1 < d.1) ∧ keysRise t := by
  unfold keysRise
  rw [List.map_cons, List.pairwise_cons]
  refine and_congr_left fun _ => ⟨fun h d hd => h _ (List.mem_map_of_mem hd), fun h q hq => ?_⟩
  obtain ⟨d, hd, rfl⟩ := List.mem_map.1 hq
  exact h d hd

@[simp] theorem assocFind_put_self : assocFind k (assocPut k v t) = some v := by
  induction t with
  | nil => simp [assocPut, assocFind]
  | cons e t ih => simp only [assocPut]; split <;> (try split) <;> simp_all [assocFind]; omega

theorem assocFind_put_ne (h : j ≠ k) : assocFind j (assocPut k v t) = assocFind j t := by
  induction t with
  | nil => simp [assocPut, assocFind, h.symm]
  | cons e t ih =>
    simp only [assocPut]
    split
    · rw [assocFind, if_neg h.symm]
    · split
      · subst_vars; simp [assocFind, h.symm]
      · simp [assocFind, ih]

@[simp] theorem assocFind_del_self : assocFind k (assocDel k t) = none := by
  induction t with
  | nil => rfl
  | cons e t ih => simp only [assocDel]; split <;> simp_all [assocFind]

theorem assocFind_del_ne (h : j ≠ k) : assocFind j (assocDel k t) = assocFind j t := by
  induction t with
  | nil => rfl
  | cons e t ih => simp only [assocDel]; split <;> simp_all [assocFind]; omega

/-- What a table lists is one of its entries. -/
theorem mem_of_assocFind (h : assocFind k t = some v) : (k, v) ∈ t := by
  induction t with
  | nil => simp [assocFind] at h
  | cons e t ih =>
    simp only [assocFind] at h
    split at h
    · cases h; subst_vars; exact List.mem_cons_self
    · exact List.mem_cons_of_mem _ (ih h)

/-- In a table whose keys rise, an entry is what the table lists under its key. -/
theorem assocFind_of_mem (hk : keysRise t) (h : (k, v) ∈ t) : assocFind k t = some v := by
  induction t with
  | nil => simp at h
  | cons e t ih =>
    obtain ⟨hlt, hk⟩ := keysRise_cons.1 hk
    rcases List.mem_cons.1 h with rfl | h'
    · simp [assocFind]
    · have := hlt _ h'
      simp only [assocFind]
      rw [if_neg (by simp only at this; omega)]
      exact ih hk h'

/-- The entries after a write are the new one and old ones. -/
theorem mem_assocPut (h : e ∈ assocPut k v t) : e = (k, v) ∨ e ∈ t := by
  induction t with
  | nil => simpa [assocPut] using h
  | cons d t ih =>
    simp only [assocPut] at h
    split at h
    · simpa using h
    · split at h
      · rcases List.mem_cons.1 h with h | h
        · exact .inl h
        · exact .inr (List.mem_cons_of_mem _ h)
      · rcases List.mem_cons.1 h with h | h
        · exact .inr (h ▸ List.mem_cons_self)
        · exact (ih h).imp_right (List.mem_cons_of_mem _)

theorem mem_assocDel (h : e ∈ assocDel k t) : e ∈ t := by
  induction t with
  | nil => simp [assocDel] at h
  | cons d t ih =>
    simp only [assocDel] at h
    split at h
    · exact List.mem_cons_of_mem _ (ih h)
    · rcases List.mem_cons.1 h with h | h
      · exact h ▸ List.mem_cons_self
      · exact List.mem_cons_of_mem _ (ih h)

theorem keysRise_put (h : keysRise t) : keysRise (assocPut k v t) := by
  induction t with
  | nil => exact keysRise_cons.2 ⟨by simp, keysRise_nil⟩
  | cons e t ih =>
    obtain ⟨hlt, ht⟩ := keysRise_cons.1 h
    simp only [assocPut]
    split
    · refine keysRise_cons.2 ⟨fun d hd => ?_, h⟩
      rcases List.mem_cons.1 hd with rfl | hd
      · assumption
      · exact lt_trans ‹_› (hlt d hd)
    · split
      · subst_vars; exact keysRise_cons.2 ⟨hlt, ht⟩
      · refine keysRise_cons.2 ⟨fun d hd => ?_, ih ht⟩
        rcases mem_assocPut hd with rfl | hd
        · simp only; omega
        · exact hlt d hd

theorem keysRise_del (h : keysRise t) : keysRise (assocDel k t) := by
  induction t with
  | nil => exact h
  | cons e t ih =>
    obtain ⟨hlt, ht⟩ := keysRise_cons.1 h
    simp only [assocDel]
    split
    · exact ih ht
    · exact keysRise_cons.2 ⟨fun d hd => hlt d (mem_assocDel hd), ih ht⟩

/-! The sum of a measure over the entries. -/

theorem sum_assocPut_new (f : α → Nat) (h : assocFind k t = none) :
    ((assocPut k v t).map (f ·.2)).sum = (t.map (f ·.2)).sum + f v := by
  induction t with
  | nil => simp [assocPut]
  | cons e t ih =>
    simp only [assocFind] at h
    split at h
    · cases h
    · simp only [assocPut]
      split
      · simp; omega
      · split
        · omega
        · simp [ih h]; omega

theorem sum_assocPut_old (f : α → Nat) (hk : keysRise t) (h : assocFind k t = some u) :
    ((assocPut k v t).map (f ·.2)).sum + f u = (t.map (f ·.2)).sum + f v := by
  induction t with
  | nil => simp [assocFind] at h
  | cons e t ih =>
    obtain ⟨hlt, hk⟩ := keysRise_cons.1 hk
    simp only [assocFind] at h
    split at h
    · cases h
      subst_vars
      simp [assocPut]; omega
    · have := hlt _ (mem_of_assocFind h)
      simp only at this
      simp only [assocPut]
      rw [if_neg (by omega), if_neg (by omega)]
      have := ih hk h
      simp; omega

theorem le_sum_of_assocFind (f : α → Nat) (h : assocFind k t = some u) :
    f u ≤ (t.map (f ·.2)).sum :=
  List.single_le_sum (by simp) _ (List.mem_map.2 ⟨_, mem_of_assocFind h, rfl⟩)

theorem sum_assocDel_le (f : α → Nat) :
    ((assocDel k t).map (f ·.2)).sum ≤ (t.map (f ·.2)).sum := by
  induction t with
  | nil => simp [assocDel]
  | cons e t ih => simp only [assocDel]; split <;> simp <;> omega

end Sys2Proof.Machine
end

