-- ==== Sys2Proof/Laws/Memory.lean ====
section
/-! SUPPORT. What each memory primitive can do, and that each keeps the canonical form. -/

namespace Sys2Proof.Machine

/-! ### Segments -/

theorem Segment.get_put (g : Segment) (o p : Nat) (v : Word) :
    (g.put o v).get p = if p = o then v else g.get p := by
  unfold Segment.get Segment.put
  by_cases hv : v = 0#32 <;> by_cases hp : p = o <;>
    simp [hv, hp, assocFind_put_ne, assocFind_del_ne]

@[simp] theorem Segment.put_length (g : Segment) (o : Nat) (v : Word) :
    (g.put o v).length = g.length := rfl

@[simp] theorem Segment.zeros_length (n : Nat) : (Segment.zeros n).length = n := rfl

@[simp] theorem Segment.zeros_get (n o : Nat) : (Segment.zeros n).get o = 0#32 := rfl

theorem Segment.zeros_wf {n : Nat} (h : n < 2 ^ 32) : (Segment.zeros n).wf :=
  ⟨keysRise_nil, by simp [Segment.zeros], h⟩

theorem Segment.put_wf {g : Segment} {o : Nat} {v : Word} (h : g.wf) (ho : o < g.length) :
    (g.put o v).wf := by
  obtain ⟨hk, he, hl⟩ := h
  refine ⟨?_, ?_, hl⟩
  · unfold Segment.put
    split
    · exact keysRise_del hk
    · exact keysRise_put hk
  · unfold Segment.put
    intro e hm
    by_cases hv : v = 0#32
    · rw [if_pos hv] at hm
      exact he e (mem_assocDel hm)
    · rw [if_neg hv] at hm
      rcases mem_assocPut hm with rfl | hm
      · exact ⟨ho, hv⟩
      · exact he e hm

/-! ### The segment table -/

variable {m m' : Memory} {id id' o o' v : Word} {g : Segment} {cap : Nat} {c : FaultCause}

theorem Memory.find_put_self : Memory.find (assocPut id.toNat g m) id = some g :=
  assocFind_put_self

theorem Memory.find_put_ne (h : id' ≠ id) :
    Memory.find (assocPut id.toNat g m) id' = m.find id' :=
  assocFind_put_ne fun e => h (BitVec.eq_of_toNat_eq e)

theorem Memory.find_del_self : Memory.find (assocDel id.toNat m) id = none :=
  assocFind_del_self

theorem Memory.find_del_ne (h : id' ≠ id) : Memory.find (assocDel id.toNat m) id' = m.find id' :=
  assocFind_del_ne fun e => h (BitVec.eq_of_toNat_eq e)

theorem Memory.find_wf (h : m.wf) (hf : m.find id = some g) : g.wf :=
  h.2 _ (mem_of_assocFind hf)

theorem Memory.put_wf {k : Nat} (h : m.wf) (hg : g.wf) : Memory.wf (assocPut k g m) :=
  ⟨keysRise_put h.1, fun e he => by
    rcases mem_assocPut he with rfl | he
    · exact hg
    · exact h.2 e he⟩

theorem Memory.del_wf {k : Nat} (h : m.wf) : Memory.wf (assocDel k m) :=
  ⟨keysRise_del h.1, fun e he => h.2 e (mem_assocDel he)⟩

/-! ### MemRead and MemWrite -/

theorem Memory.read_eq_ok :
    m.read id o = .ok v ↔ ∃ g, m.find id = some g ∧ o.toNat < g.length ∧ g.get o.toNat = v := by
  unfold Memory.read
  cases h : m.find id with
  | none => simp
  | some g =>
    by_cases ho : g.length ≤ o.toNat
    · simp [ho, Nat.not_lt.2 ho]
    · simp [ho, Nat.lt_of_not_le ho]

/-- MemRead depends only on what the ID names. -/
theorem Memory.read_congr (h : m'.find id = m.find id) : m'.read id o = m.read id o := by
  unfold Memory.read; rw [h]

theorem Memory.write_eq_ok :
    m.write id o v = .ok m' ↔
      ∃ g, m.find id = some g ∧ o.toNat < g.length ∧
        m' = assocPut id.toNat (g.put o.toNat v) m := by
  unfold Memory.write
  cases h : m.find id with
  | none => simp
  | some g =>
    by_cases ho : g.length ≤ o.toNat
    · simp [ho, Nat.not_lt.2 ho]
    · simp [ho, Nat.lt_of_not_le ho, eq_comm]

theorem Memory.write_find_ne (h : m.write id o v = .ok m') (hne : id' ≠ id) :
    m'.find id' = m.find id' := by
  obtain ⟨g, -, -, rfl⟩ := Memory.write_eq_ok.1 h
  exact Memory.find_put_ne hne

/-- The word just written reads back. -/
theorem Memory.read_write_self (h : m.write id o v = .ok m') : m'.read id o = .ok v := by
  obtain ⟨g, hg, ho, rfl⟩ := Memory.write_eq_ok.1 h
  exact Memory.read_eq_ok.2 ⟨_, Memory.find_put_self, ho, by simp [Segment.get_put]⟩

/-- Every other word reads as before. -/
theorem Memory.read_write_ne (h : m.write id o v = .ok m') (hne : ¬(id' = id ∧ o' = o)) :
    m'.read id' o' = m.read id' o' := by
  by_cases hi : id' = id
  · subst hi
    have ho' : o'.toNat ≠ o.toNat := fun e => hne ⟨rfl, BitVec.eq_of_toNat_eq e⟩
    obtain ⟨g, hg, -, rfl⟩ := Memory.write_eq_ok.1 h
    unfold Memory.read
    rw [Memory.find_put_self, hg]
    simp [Segment.get_put, ho']
  · exact Memory.read_congr (Memory.write_find_ne h hi)

theorem Memory.write_wf (hw : m.wf) (h : m.write id o v = .ok m') : m'.wf := by
  obtain ⟨g, hg, ho, rfl⟩ := Memory.write_eq_ok.1 h
  exact Memory.put_wf hw (Segment.put_wf (Memory.find_wf hw hg) ho)

/-- A write maps and unmaps nothing. -/
theorem Memory.write_mapped (h : m.write id o v = .ok m') :
    m'.find id' ≠ none ↔ m.find id' ≠ none := by
  by_cases hi : id' = id
  · subst hi
    obtain ⟨g, hg, -, rfl⟩ := Memory.write_eq_ok.1 h
    simp [Memory.find_put_self, hg]
  · rw [Memory.write_find_ne h hi]

theorem Memory.write_used (hk : keysRise m) (h : m.write id o v = .ok m') : m'.used = m.used := by
  obtain ⟨g, hg, -, rfl⟩ := Memory.write_eq_ok.1 h
  have := sum_assocPut_old (v := g.put o.toNat v) Segment.length hk hg
  unfold Memory.used
  simp only [Segment.put_length] at this
  omega

/-! ### Dup -/

theorem Memory.dup_eq_ok :
    m.dup cap id = .ok m' ↔
      (id = 0#32 ∧ m' = m) ∨
        (id ≠ 0#32 ∧ ∃ g, m.find id = some g ∧ m.used - m.programLength + g.length ≤ cap ∧
          m' = assocPut 0 g m) := by
  unfold Memory.dup
  by_cases hi : id = 0#32
  · simp [hi, eq_comm]
  · cases h : m.find id with
    | none => simp [hi]
    | some g =>
      by_cases hc : cap < m.used - m.programLength + g.length
      · simp [hi, hc, Nat.not_le.2 hc]
      · simp [hi, hc, Nat.le_of_not_lt hc, eq_comm]

theorem Memory.dup_wf (hw : m.wf) (h : m.dup cap id = .ok m') : m'.wf := by
  rcases Memory.dup_eq_ok.1 h with ⟨-, rfl⟩ | ⟨-, g, hg, -, rfl⟩
  · exact hw
  · exact Memory.put_wf hw (Memory.find_wf hw hg)

/-- Dup leaves every segment but segment 0 as it was. -/
theorem Memory.dup_find_ne (h : m.dup cap id = .ok m') (hne : id' ≠ 0#32) :
    m'.find id' = m.find id' := by
  rcases Memory.dup_eq_ok.1 h with ⟨-, rfl⟩ | ⟨-, g, -, -, rfl⟩
  · rfl
  · exact Memory.find_put_ne (id := 0#32) hne

theorem Memory.dup_find_zero (h : m.dup cap id = .ok m') : m'.find 0#32 = m.find id := by
  rcases Memory.dup_eq_ok.1 h with ⟨rfl, rfl⟩ | ⟨-, g, hg, -, rfl⟩
  · rfl
  · rw [hg]; exact Memory.find_put_self (id := 0#32)

theorem Memory.dup_used_le (hk : keysRise m) (h0 : m.find 0#32 ≠ none) (hu : m.used ≤ cap)
    (h : m.dup cap id = .ok m') : m'.used ≤ cap := by
  rcases Memory.dup_eq_ok.1 h with ⟨-, rfl⟩ | ⟨-, g, -, hc, rfl⟩
  · exact hu
  · obtain ⟨g0, hg0⟩ := Option.ne_none_iff_exists'.1 h0
    have hs := sum_assocPut_old (v := g) Segment.length hk hg0
    have hp : m.programLength = g0.length := by unfold Memory.programLength; rw [hg0]
    have hl : g0.length ≤ m.used := le_sum_of_assocFind Segment.length hg0
    have hz : (0#32 : Word).toNat = 0 := rfl
    rw [hz] at hs
    unfold Memory.used at *
    omega

end Sys2Proof.Machine
end

