-- ==== Sys2Proof/Laws/State.lean ====
section
/-! SUPPORT. One lemma per field per update of the state, for simp. -/

namespace Sys2Proof.Machine

section
variable (s : State) (a : Reg) (v t : Word) (c : FaultCause) (b : Byte)

@[simp] theorem setReg_pc : (s.setReg a v).pc = s.pc := rfl
@[simp] theorem setReg_st : (s.setReg a v).st = s.st := rfl
@[simp] theorem setReg_fr : (s.setReg a v).fr = s.fr := rfl
@[simp] theorem setReg_seg : (s.setReg a v).seg = s.seg := rfl
@[simp] theorem setReg_pool : (s.setReg a v).pool = s.pool := rfl
@[simp] theorem setReg_next : (s.setReg a v).next = s.next := rfl
@[simp] theorem setReg_out : (s.setReg a v).out = s.out := rfl
@[simp] theorem setReg_inRest : (s.setReg a v).inRest = s.inRest := rfl
@[simp] theorem setReg_eos : (s.setReg a v).eos = s.eos := rfl
@[simp] theorem setReg_params : (s.setReg a v).params = s.params := rfl

@[simp] theorem setPc_regs : (s.setPc t).regs = s.regs := rfl
@[simp] theorem setPc_pc : (s.setPc t).pc = t := rfl
@[simp] theorem setPc_st : (s.setPc t).st = s.st := rfl
@[simp] theorem setPc_fr : (s.setPc t).fr = s.fr := rfl
@[simp] theorem setPc_seg : (s.setPc t).seg = s.seg := rfl
@[simp] theorem setPc_pool : (s.setPc t).pool = s.pool := rfl
@[simp] theorem setPc_next : (s.setPc t).next = s.next := rfl
@[simp] theorem setPc_out : (s.setPc t).out = s.out := rfl
@[simp] theorem setPc_inRest : (s.setPc t).inRest = s.inRest := rfl
@[simp] theorem setPc_eos : (s.setPc t).eos = s.eos := rfl
@[simp] theorem setPc_params : (s.setPc t).params = s.params := rfl

@[simp] theorem advance_regs : s.advance.regs = s.regs := rfl
@[simp] theorem advance_pc : s.advance.pc = s.pc + 1#32 := rfl
@[simp] theorem advance_st : s.advance.st = s.st := rfl
@[simp] theorem advance_fr : s.advance.fr = s.fr := rfl
@[simp] theorem advance_seg : s.advance.seg = s.seg := rfl
@[simp] theorem advance_pool : s.advance.pool = s.pool := rfl
@[simp] theorem advance_next : s.advance.next = s.next := rfl
@[simp] theorem advance_out : s.advance.out = s.out := rfl
@[simp] theorem advance_inRest : s.advance.inRest = s.inRest := rfl
@[simp] theorem advance_eos : s.advance.eos = s.eos := rfl
@[simp] theorem advance_params : s.advance.params = s.params := rfl

@[simp] theorem finish_regs : (s.finish a v).regs = s.regs.set a v := rfl
@[simp] theorem finish_pc : (s.finish a v).pc = s.pc + 1#32 := rfl
@[simp] theorem finish_st : (s.finish a v).st = s.st := rfl
@[simp] theorem finish_fr : (s.finish a v).fr = s.fr := rfl
@[simp] theorem finish_seg : (s.finish a v).seg = s.seg := rfl
@[simp] theorem finish_pool : (s.finish a v).pool = s.pool := rfl
@[simp] theorem finish_next : (s.finish a v).next = s.next := rfl
@[simp] theorem finish_out : (s.finish a v).out = s.out := rfl
@[simp] theorem finish_inRest : (s.finish a v).inRest = s.inRest := rfl
@[simp] theorem finish_eos : (s.finish a v).eos = s.eos := rfl
@[simp] theorem finish_params : (s.finish a v).params = s.params := rfl

@[simp] theorem output_regs : (s.output b).regs = s.regs := rfl
@[simp] theorem output_pc : (s.output b).pc = s.pc := rfl
@[simp] theorem output_st : (s.output b).st = s.st := rfl
@[simp] theorem output_fr : (s.output b).fr = s.fr := rfl
@[simp] theorem output_seg : (s.output b).seg = s.seg := rfl
@[simp] theorem output_pool : (s.output b).pool = s.pool := rfl
@[simp] theorem output_next : (s.output b).next = s.next := rfl
@[simp] theorem output_out : (s.output b).out = s.out ++ [b] := rfl
@[simp] theorem output_inRest : (s.output b).inRest = s.inRest := rfl
@[simp] theorem output_eos : (s.output b).eos = s.eos := rfl
@[simp] theorem output_params : (s.output b).params = s.params := rfl

@[simp] theorem haltEngine_regs : s.haltEngine.regs = s.regs := rfl
@[simp] theorem haltEngine_pc : s.haltEngine.pc = s.pc := rfl
@[simp] theorem haltEngine_st : s.haltEngine.st = .halted := rfl
@[simp] theorem haltEngine_fr : s.haltEngine.fr = s.fr := rfl
@[simp] theorem haltEngine_seg : s.haltEngine.seg = s.seg := rfl
@[simp] theorem haltEngine_pool : s.haltEngine.pool = s.pool := rfl
@[simp] theorem haltEngine_next : s.haltEngine.next = s.next := rfl
@[simp] theorem haltEngine_out : s.haltEngine.out = s.out := rfl
@[simp] theorem haltEngine_inRest : s.haltEngine.inRest = s.inRest := rfl
@[simp] theorem haltEngine_eos : s.haltEngine.eos = s.eos := rfl
@[simp] theorem haltEngine_params : s.haltEngine.params = s.params := rfl

@[simp] theorem raise_regs : (s.raise c).regs = s.regs := rfl
@[simp] theorem raise_pc : (s.raise c).pc = s.pc := rfl
@[simp] theorem raise_st : (s.raise c).st = .faulted := rfl
@[simp] theorem raise_fr : (s.raise c).fr = some (s.record c) := rfl
@[simp] theorem raise_seg : (s.raise c).seg = s.seg := rfl
@[simp] theorem raise_pool : (s.raise c).pool = s.pool := rfl
@[simp] theorem raise_next : (s.raise c).next = s.next := rfl
@[simp] theorem raise_out : (s.raise c).out = s.out := rfl
@[simp] theorem raise_inRest : (s.raise c).inRest = s.inRest := rfl
@[simp] theorem raise_eos : (s.raise c).eos = s.eos := rfl
@[simp] theorem raise_params : (s.raise c).params = s.params := rfl

/-! Reading a register after each update. -/

theorem reg_setReg (r : Reg) : (s.setReg a v).reg r = if r = a then v else s.reg r := by
  unfold State.reg State.setReg
  simp only [Fin.getElem_fin, Vector.getElem_set]
  by_cases h : r = a
  · simp [h]
  · rw [if_neg h, if_neg]
    exact fun e => h (Fin.ext e.symm)

@[simp] theorem reg_setReg_self : (s.setReg a v).reg a = v := by simp [reg_setReg]

theorem reg_setReg_ne {r : Reg} (h : r ≠ a) : (s.setReg a v).reg r = s.reg r := by
  simp [reg_setReg, h]

@[simp] theorem reg_setPc (r : Reg) : (s.setPc t).reg r = s.reg r := rfl
@[simp] theorem reg_advance (r : Reg) : s.advance.reg r = s.reg r := rfl
@[simp] theorem reg_output (r : Reg) : (s.output b).reg r = s.reg r := rfl
@[simp] theorem reg_haltEngine (r : Reg) : s.haltEngine.reg r = s.reg r := rfl
@[simp] theorem reg_raise (r : Reg) : (s.raise c).reg r = s.reg r := rfl

theorem reg_finish (r : Reg) : (s.finish a v).reg r = if r = a then v else s.reg r :=
  reg_setReg s a v r

@[simp] theorem reg_finish_self : (s.finish a v).reg a = v := reg_setReg_self s a v

theorem reg_finish_ne {r : Reg} (h : r ≠ a) : (s.finish a v).reg r = s.reg r :=
  reg_setReg_ne s a v h

end

/-- Two states with the same registers and the same other fields are the same state. -/
theorem State.ext_fields {s t : State} (h1 : ∀ r, s.reg r = t.reg r) (h2 : s.pc = t.pc)
    (h3 : s.st = t.st) (h4 : s.fr = t.fr) (h5 : s.seg = t.seg) (h6 : s.pool = t.pool)
    (h7 : s.next = t.next) (h8 : s.out = t.out) (h9 : s.inRest = t.inRest) (h10 : s.eos = t.eos)
    (h11 : s.params = t.params) : s = t := by
  have h0 : s.regs = t.regs := by
    apply Vector.ext
    exact fun i hi => h1 ⟨i, hi⟩
  cases s; cases t; simp_all

end Sys2Proof.Machine
end

