-- ==== Sys2Proof/Laws/Ops.lean ====
section
/-! SUPPORT. What each shared operation on the state can do: the allocation primitives, the input
port, the fetch, and the end of a step. -/

namespace Sys2Proof.Machine

variable {s t : State} {id n : Word} {r : Except FaultCause State}

/-- The ID a MAP uses is the top of the pool, else the counter while it has not passed ID_MAX. -/
theorem chooseId_eq_ok {pool : List Word} {next : Word} :
    s.chooseId = .ok (id, pool, next) ↔
      (s.pool = id :: pool ∧ next = s.next) ∨
        (s.pool = [] ∧ pool = [] ∧ s.next.toNat ≤ s.params.idMax.toNat ∧ id = s.next ∧
          next = s.next + 1#32) := by
  unfold State.chooseId
  cases h : s.pool with
  | nil =>
    by_cases hc : s.next.toNat > s.params.idMax.toNat
    · simp only [if_pos hc]; simp; omega
    · simp only [if_neg hc]; simp; constructor
      · rintro ⟨rfl, rfl, rfl⟩; simp; omega
      · rintro ⟨rfl, -, rfl, rfl⟩; simp
  | cons p ps => simp [and_assoc, @eq_comm _ next]

/-- All that Map can do. -/
theorem mapSegment_eq_ok :
    s.mapSegment n = .ok (id, t) ↔
      ∃ pool next, s.chooseId = .ok (id, pool, next) ∧
        s.seg.used + n.toNat ≤ s.params.memCapacityWords ∧
        t = { s with seg := assocPut id.toNat (Segment.zeros n.toNat) s.seg,
                     pool := pool, next := next } := by
  unfold State.mapSegment
  cases h : s.chooseId with
  | error c => simp
  | ok x =>
    obtain ⟨i, p, q⟩ := x
    by_cases hc : s.seg.used + n.toNat > s.params.memCapacityWords
    · simp only [if_pos hc]; simp; omega
    · simp only [if_neg hc, Except.ok.injEq, Prod.mk.injEq]
      constructor
      · rintro ⟨rfl, rfl⟩; exact ⟨p, q, ⟨rfl, rfl, rfl⟩, by omega, rfl⟩
      · rintro ⟨_, _, ⟨rfl, rfl, rfl⟩, -, rfl⟩; exact ⟨rfl, rfl⟩

/-- All that Unmap can do. -/
theorem unmapSegment_eq_ok :
    s.unmapSegment id = .ok t ↔
      id ≠ 0#32 ∧ s.seg.find id ≠ none ∧
        t = { s with seg := assocDel id.toNat s.seg, pool := id :: s.pool } := by
  unfold State.unmapSegment
  by_cases hi : id = 0#32
  · simp [hi]
  · cases h : s.seg.find id <;> simp [hi, eq_comm]

/-- All that Dup can do to the state. -/
theorem loadProgram_eq_ok :
    s.loadProgram id = .ok t ↔
      ∃ m, s.seg.dup s.params.memCapacityWords id = .ok m ∧ t = { s with seg := m } := by
  unfold State.loadProgram
  cases h : s.seg.dup s.params.memCapacityWords id <;> simp [eq_comm]

/-- A step ends in its writes, or in the fault and none of them. -/
theorem commit_eq_next :
    s.commit r = .next t ↔ r = .ok t ∨ ∃ c, r = .error c ∧ t = s.raise c := by
  unfold State.commit State.takeFault
  cases r <;> simp [eq_comm]

@[simp] theorem commit_ok : s.commit (.ok t) = .next t := rfl

@[simp] theorem commit_error (c : FaultCause) : s.commit (.error c) = .next (s.raise c) := rfl

/-- An answer that delivers end-of-stream leaves nothing of the stream, if the port was in order. -/
theorem input_eos {a : InputAnswer} {rest : InputRest} {e : Bool}
    (hs : s.eos = true → s.inRest = ⟨[], .closed⟩) (h : s.input = some (a, rest, e)) :
    e = true → rest = ⟨[], .closed⟩ := by
  unfold State.input at h
  split at h
  · cases h; exact fun _ => hs ‹_›
  · split at h
    · cases h; simp
    · split at h
      · cases h
        intro _
        rename_i hb ht
        cases hr : s.inRest
        simp_all
      · cases h
      · rename_i pos _
        revert h
        cases Config.hostAnswer pos <;> intro h <;> cases h <;> simp

/-- The fetch reads segment 0 at pc, inside its bounds. -/
theorem fetch_eq_ok {w : Word} :
    s.fetch = .ok w ↔
      ∃ g, s.seg.find 0#32 = some g ∧ s.pc.toNat < g.length ∧ g.get s.pc.toNat = w := by
  unfold State.fetch
  cases h : s.seg.find 0#32 with
  | none => simp
  | some g =>
    by_cases ho : g.length ≤ s.pc.toNat
    · simp [ho, Nat.not_lt.2 ho]
    · simp [ho, Nat.lt_of_not_le ho]

/-- A fetch fails only with PcOutOfBounds, at the length of segment 0. -/
theorem fetch_eq_error {c : FaultCause} :
    s.fetch = .error c ↔
      s.seg.programLength ≤ s.pc.toNat ∧ c = .pcOutOfBounds s.pc s.seg.programLength := by
  unfold State.fetch Memory.programLength
  cases h : s.seg.find 0#32 with
  | none => simp [eq_comm]
  | some g =>
    by_cases ho : g.length ≤ s.pc.toNat <;> simp [ho, eq_comm]

end Sys2Proof.Machine
end

