-- ==== Sys2Proof/Laws/PerInstr.lean ====
section
/-! SUPPORT. One law per instruction: the word of a well-formed instruction carries that instruction's
opcode in bits [31:28], so no operand overflows into it (30_encoding.md R61, R62, R63). -/

namespace Sys2Proof.Laws.EncodedOpcode

/-- The encoded word's bits [31:28] are the instruction's opcode. -/
def Statement (i : Instr) : Prop := i.WellFormed → (encode i).toNat / 2 ^ 28 = i.opcode

theorem encodeABC_opcode {op : Nat} (h : op < 16) (a b c : Reg) :
    (encodeABC op a b c).toNat / 2 ^ 28 = op := by
  unfold encodeABC
  rw [BitVec.toNat_ofNat]
  omega

theorem cmov (a b c : Reg) : Statement (.cmov a b c) := fun _ => encodeABC_opcode (by decide) a b c
theorem sload (a b c : Reg) : Statement (.sload a b c) := fun _ => encodeABC_opcode (by decide) a b c
theorem sstore (a b c : Reg) : Statement (.sstore a b c) :=
  fun _ => encodeABC_opcode (by decide) a b c
theorem add (a b c : Reg) : Statement (.add a b c) := fun _ => encodeABC_opcode (by decide) a b c
theorem mul (a b c : Reg) : Statement (.mul a b c) := fun _ => encodeABC_opcode (by decide) a b c
theorem div (a b c : Reg) : Statement (.div a b c) := fun _ => encodeABC_opcode (by decide) a b c
theorem nand (a b c : Reg) : Statement (.nand a b c) := fun _ => encodeABC_opcode (by decide) a b c
theorem halt : Statement .halt := fun _ => encodeABC_opcode (by decide) 0 0 0
theorem map (b c : Reg) : Statement (.map b c) := fun _ => encodeABC_opcode (by decide) 0 b c
theorem unmap (c : Reg) : Statement (.unmap c) := fun _ => encodeABC_opcode (by decide) 0 0 c
theorem out (c : Reg) : Statement (.out c) := fun _ => encodeABC_opcode (by decide) 0 0 c
theorem inp (c : Reg) : Statement (.inp c) := fun _ => encodeABC_opcode (by decide) 0 0 c
theorem loadp (b c : Reg) : Statement (.loadp b c) := fun _ => encodeABC_opcode (by decide) 0 b c
theorem lv (a : Reg) (imm : Word) : Statement (.lv a imm) := by
  intro h
  have hi : imm.toNat < 2 ^ 25 := by simpa [Instr.WellFormed, Instr.wellFormed] using h
  show (encodeImm 13 a imm.toNat).toNat / 2 ^ 28 = 13
  unfold encodeImm
  rw [BitVec.toNat_ofNat]
  omega
theorem illegal14 : Statement .illegal14 := fun _ => encodeABC_opcode (by decide) 0 0 0
theorem illegal15 : Statement .illegal15 := fun _ => encodeABC_opcode (by decide) 0 0 0

end Sys2Proof.Laws.EncodedOpcode
end

