-- ==== Sys2Proof/Laws/Step.lean ====
section
/-! SUPPORT. What a step can do, said once: `Effect` lists every way a meaning ends, with its guard;
`exec_effect` says that exec does nothing else, `step_cases` the same of a step. -/

namespace Sys2Proof.Machine

/-- Every way an instruction's execution ends, with the primitive that answered. -/
inductive Effect (s : State) : Instr → State → Prop where
  | moved {a b c : Reg} (h : s.reg c = 0#32) : Effect s (.cmov a b c) s.advance
  | cmov {a b c : Reg} (h : s.reg c ≠ 0#32) : Effect s (.cmov a b c) (s.finish a (s.reg b))
  | add {a b c : Reg} : Effect s (.add a b c) (s.finish a (aluAdd (s.reg b) (s.reg c)))
  | mul {a b c : Reg} : Effect s (.mul a b c) (s.finish a (aluMul (s.reg b) (s.reg c)))
  | div {a b c : Reg} (h : s.reg c ≠ 0#32) :
    Effect s (.div a b c) (s.finish a (aluDiv (s.reg b) (s.reg c)))
  | divFault {a b c : Reg} (h : s.reg c = 0#32) :
    Effect s (.div a b c) (s.raise (.divideByZero (s.reg b)))
  | nand {a b c : Reg} : Effect s (.nand a b c) (s.finish a (aluNand (s.reg b) (s.reg c)))
  | lv {a : Reg} {imm : Word} : Effect s (.lv a imm) (s.finish a (immValue imm))
  | sload {a b c : Reg} {v : Word} (h : s.seg.read (s.reg b) (s.reg c) = .ok v) :
    Effect s (.sload a b c) (s.finish a v)
  | sloadFault {a b c : Reg} {f : FaultCause} (h : s.seg.read (s.reg b) (s.reg c) = .error f) :
    Effect s (.sload a b c) (s.raise f)
  | sstore {a b c : Reg} {m : Memory} (h : s.seg.write (s.reg a) (s.reg b) (s.reg c) = .ok m) :
    Effect s (.sstore a b c) { s with seg := m }.advance
  | sstoreFault {a b c : Reg} {f : FaultCause}
    (h : s.seg.write (s.reg a) (s.reg b) (s.reg c) = .error f) :
    Effect s (.sstore a b c) (s.raise f)
  | map {b c : Reg} {id : Word} {t : State} (h : s.mapSegment (s.reg c) = .ok (id, t)) :
    Effect s (.map b c) (t.finish b id)
  | mapFault {b c : Reg} {f : FaultCause} (h : s.mapSegment (s.reg c) = .error f) :
    Effect s (.map b c) (s.raise f)
  | unmap {c : Reg} {t : State} (h : s.unmapSegment (s.reg c) = .ok t) :
    Effect s (.unmap c) t.advance
  | unmapFault {c : Reg} {f : FaultCause} (h : s.unmapSegment (s.reg c) = .error f) :
    Effect s (.unmap c) (s.raise f)
  | halt : Effect s .halt s.advance.haltEngine
  | loadp {b c : Reg} {t : State} (h : s.loadProgram (s.reg b) = .ok t) :
    Effect s (.loadp b c) (t.setPc (s.reg c))
  | loadpFault {b c : Reg} {f : FaultCause} (h : s.loadProgram (s.reg b) = .error f) :
    Effect s (.loadp b c) (s.raise f)
  | out {c : Reg} (h : (s.reg c).toNat ≤ 255) :
    Effect s (.out c) (s.output (byteOperand (s.reg c))).advance
  | outFault {c : Reg} (h : 255 < (s.reg c).toNat) :
    Effect s (.out c) (s.raise (.outputRange (s.reg c)))
  | inp {c : Reg} {a : InputAnswer} {rest : InputRest} {e : Bool}
    (h : s.input = some (a, rest, e)) :
    Effect s (.inp c) ({ s with inRest := rest, eos := e }.finish c (inputValue a))
  | waits {c : Reg} (h : s.input = none) : Effect s (.inp c) s
  | illegal14 : Effect s .illegal14 (s.raise (.unrecognizedOpcode 14))
  | illegal15 : Effect s .illegal15 (s.raise (.unrecognizedOpcode 15))

/-- Every instruction, in every state, ends in a next state, in one of the ways `Effect` lists. -/
theorem exec_effect (i : Instr) (s : State) : ∃ t, exec i s = .next t ∧ Effect s i t := by
  cases i with
  | cmov a b c =>
    by_cases h : s.reg c = 0#32
    · exact ⟨_, by simp [exec, execCmov, condHolds, h], .moved h⟩
    · exact ⟨_, by simp [exec, execCmov, condHolds, h], .cmov h⟩
  | sload a b c =>
    cases h : s.seg.read (s.reg b) (s.reg c) with
    | ok v => exact ⟨_, by simp [exec, execSload, h, Except.map], .sload h⟩
    | error f => exact ⟨_, by simp [exec, execSload, h, Except.map], .sloadFault h⟩
  | sstore a b c =>
    cases h : s.seg.write (s.reg a) (s.reg b) (s.reg c) with
    | ok v => exact ⟨_, by simp [exec, execSstore, h, Except.map], .sstore h⟩
    | error f => exact ⟨_, by simp [exec, execSstore, h, Except.map], .sstoreFault h⟩
  | add a b c => exact ⟨_, rfl, .add⟩
  | mul a b c => exact ⟨_, rfl, .mul⟩
  | div a b c =>
    by_cases h : s.reg c = 0#32
    · exact ⟨_, by simp [exec, execDiv, isZero, h, State.takeFault], .divFault h⟩
    · exact ⟨_, by simp [exec, execDiv, isZero, h], .div h⟩
  | nand a b c => exact ⟨_, rfl, .nand⟩
  | halt => exact ⟨_, rfl, .halt⟩
  | map b c =>
    cases h : s.mapSegment (s.reg c) with
    | ok r => exact ⟨_, by simp [exec, execMap, h, Except.map], .map h⟩
    | error f => exact ⟨_, by simp [exec, execMap, h, Except.map], .mapFault h⟩
  | unmap c =>
    cases h : s.unmapSegment (s.reg c) with
    | ok r => exact ⟨_, by simp [exec, execUnmap, h, Except.map], .unmap h⟩
    | error f => exact ⟨_, by simp [exec, execUnmap, h, Except.map], .unmapFault h⟩
  | out c =>
    by_cases h : 255 < (s.reg c).toNat
    · exact ⟨_, by simp [exec, execOut, aboveByte, h, State.takeFault], .outFault h⟩
    · exact ⟨_, by simp [exec, execOut, aboveByte, h], .out (by omega)⟩
  | inp c =>
    cases h : s.input with
    | none => exact ⟨_, by simp [exec, execInp, h], .waits h⟩
    | some r => exact ⟨_, by simp [exec, execInp, h], .inp h⟩
  | loadp b c =>
    cases h : s.loadProgram (s.reg b) with
    | ok r => exact ⟨_, by simp [exec, execLoadp, h, Except.map], .loadp h⟩
    | error f => exact ⟨_, by simp [exec, execLoadp, h, Except.map], .loadpFault h⟩
  | lv a imm => exact ⟨_, rfl, .lv⟩
  | illegal14 => exact ⟨_, rfl, .illegal14⟩
  | illegal15 => exact ⟨_, rfl, .illegal15⟩

/-- What exec answers is one of the ways `Effect` lists. -/
theorem effect_of_exec {i : Instr} {s t : State} (h : exec i s = .next t) : Effect s i t := by
  obtain ⟨u, hu, he⟩ := exec_effect i s
  rw [hu] at h
  cases h
  exact he

/-- The decoder answers on every word. -/
theorem decode_ok (w : Word) : ∃ i, decode w = .ok i := by
  rw [decode_eq]
  rcases Fin.ofNat 16 (w.toNat / 2 ^ 28) with ⟨k, hk⟩
  rcases k with _|_|_|_|_|_|_|_|_|_|_|_|_|_|_|_|k <;>
    first | exact ⟨_, withABC_ok w _⟩ | exact ⟨_, withImm_ok w _⟩ | exact ⟨_, rfl⟩ | omega

/-- A step of a Running engine: the fetch's fault, or an effect of the instruction fetched. -/
theorem step_cases {s t : State} (h : step s = .next t) :
    s.st = .running ∧
      ((s.seg.programLength ≤ s.pc.toNat ∧
          t = s.raise (.pcOutOfBounds s.pc s.seg.programLength)) ∨
        ∃ w i, s.fetch = .ok w ∧ decode w = .ok i ∧ exec i s = .next t ∧ Effect s i t) := by
  unfold step at h
  cases hst : s.st <;> rw [hst] at h <;> simp only [reduceCtorEq] at h
  refine ⟨rfl, ?_⟩
  cases hf : s.fetch with
  | error c =>
    rw [hf] at h
    obtain ⟨hl, rfl⟩ := fetch_eq_error.1 hf
    cases h
    exact .inl ⟨hl, rfl⟩
  | ok w =>
    obtain ⟨i, hi⟩ := decode_ok w
    rw [hf] at h
    simp only [hi] at h
    exact .inr ⟨w, i, rfl, hi, h, effect_of_exec h⟩

end Sys2Proof.Machine
end

