-- ==== Sys2Proof/Tests/Slice0.lean ====
section
/-! SUPPORT. Tests of the model's own: words written out from the spec's encodings, the spec's test
vectors (95_test_vectors.md), the WellFormed smoke test, and a witness for every statement that has
hypotheses. -/

namespace Sys2Proof.Machine.Tests

/-! ### Helpers -/

/-- The outcome is a next state of which p holds. -/
def ran (o : Host.Outcome State Fault Refusal) (p : State → Bool) : Bool :=
  match o with
  | .next t => p t
  | .fault _ => false
  | .refused _ => false

/-- A Running state with registers x0 to x5 (x6 and x7 are 0), the given program in segment 0, and a
5-word segment 1 with 0x41 at offset 2; next = 2, nothing in the pool, closed input. -/
def demo (x0 x1 x2 x3 x4 x5 : Nat) (program : List Nat := [0x300000CA, 0x70000000]) : State :=
  { State.reset with
    regs := #v[BitVec.ofNat 32 x0, BitVec.ofNat 32 x1, BitVec.ofNat 32 x2, BitVec.ofNat 32 x3,
      BitVec.ofNat 32 x4, BitVec.ofNat 32 x5, 0#32, 0#32]
    seg := [(0, Segment.ofWords (program.map (BitVec.ofNat 32))), (1, ⟨5, [(2, 0x41#32)]⟩)]
    next := 2#32
    inRest := finiteStream [] }

/-- demo with segment 2 mapped as well. -/
def demo2 (x1 x2 x3 : Nat) : State :=
  { demo 0 x1 x2 x3 0 0 with
    seg := (demo 0 x1 x2 x3 0 0).seg ++ [(2, ⟨1, []⟩)]
    next := 3#32 }

/-! ### WellFormed: an ill-formed term for the one check -/

theorem test_wellFormed_refuses_wide_immediate : ¬ (Instr.lv 0 0x2000000#32).WellFormed := by decide
theorem test_wellFormed_admits_widest_immediate : (Instr.lv 7 0x1FFFFFF#32).WellFormed := by decide

/-! ### Decoding: every constructor, its word written out field by field (30_encoding.md R62 to R64):
opcode, ignored bits, A, B, C -/

theorem test_decode_cmov : decode 0b0000_0000000000000000000_001_010_011#32 = .ok (.cmov 1 2 3) := by
  decide
theorem test_decode_sload : decode 0b0001_1111111111111111111_100_010_011#32 = .ok (.sload 4 2 3) := by
  decide
theorem test_decode_sstore : decode 0b0010_0000000000000000000_010_011_001#32 = .ok (.sstore 2 3 1) := by
  decide
theorem test_decode_add : decode 0b0011_1010101010101010101_111_000_110#32 = .ok (.add 7 0 6) := by
  decide
theorem test_decode_mul : decode 0b0100_0000000000000000000_011_011_100#32 = .ok (.mul 3 3 4) := by
  decide
theorem test_decode_div : decode 0b0101_0000000000000000001_011_001_010#32 = .ok (.div 3 1 2) := by
  decide
theorem test_decode_nand : decode 0b0110_1000000000000000000_001_000_111#32 = .ok (.nand 1 0 7) := by
  decide
theorem test_decode_halt : decode 0b0111_1111111111111111111_111_111_111#32 = .ok .halt := by decide
theorem test_decode_map : decode 0b1000_0000000000000000000_101_010_001#32 = .ok (.map 2 1) := by
  decide
theorem test_decode_unmap : decode 0b1001_0000000000000000000_101_110_010#32 = .ok (.unmap 2) := by
  decide
theorem test_decode_out : decode 0b1010_0000000000000000000_000_100_011#32 = .ok (.out 3) := by decide
theorem test_decode_inp : decode 0b1011_0000000000000000000_001_000_111#32 = .ok (.inp 7) := by decide
theorem test_decode_loadp : decode 0b1100_0000000000000000000_111_000_101#32 = .ok (.loadp 0 5) := by
  decide
theorem test_decode_lv : decode 0b1101_110_1000000000000000000000011#32 = .ok (.lv 6 0x1000003#32) := by
  decide
theorem test_decode_illegal14 : decode 0b1110_0000000000000000000000000001#32 = .ok .illegal14 := by
  decide
theorem test_decode_illegal15 : decode 0b1111_1111111111111111111111111111#32 = .ok .illegal15 := by
  decide

/-- V-D4, V-D5: the extreme LV words. -/
theorem test_decode_lv_extremes :
    decode 0xDFFFFFFF#32 = .ok (.lv 7 0x1FFFFFF#32) ∧ decode 0xD0000000#32 = .ok (.lv 0 0#32) := by
  decide

/-- R212: image bytes are big-endian; fewer than four bytes are rejected by name. -/
theorem test_decodeBytes :
    decodeBytes [0xD2#8, 0x00#8, 0x00#8, 0x30#8, 0x70#8] = .ok (.lv 1 48#32, [0x70#8]) ∧
      decodeBytes [0xD2#8, 0x00#8, 0x00#8] = .error .truncated := by decide

/-- The assembled words of 95_test_vectors.md P2, P3, P5. -/
theorem test_encode_program_words :
    encode (.sstore 4 5 1) = 0x20000129#32 ∧ encode (.cmov 5 6 2) = 0x00000172#32 ∧
      encode (.map 7 2) = 0x8000003A#32 ∧ encode (.loadp 7 0) = 0xC0000038#32 ∧
      encode (.lv 3 0x1000000#32) = 0xD7000000#32 := by decide

theorem test_decodeTableWord : decodeTableWord 32 0xA0000003 = some (.out 3) := by decide

/-! ### Instructions (V-* of 95_test_vectors.md) -/

/-- V-R1, V-R2. -/
theorem test_cmov :
    ran (exec (.cmov 3 1 2) (demo 0 5 1 9 0 0)) (fun t => t.reg 3 = 5#32) ∧
      ran (exec (.cmov 3 1 2) (demo 0 5 0 9 0 0)) (fun t => t.reg 3 = 9#32) := by decide
/-- V-R5, V-R6. -/
theorem test_add_wraps :
    ran (exec (.add 3 1 2) (demo 0 0xFFFFFFFF 1 9 0 0)) (fun t => t.reg 3 = 0#32) ∧
      ran (exec (.add 1 1 1) (demo 0 0xFFFFFFFF 1 9 0 0)) (fun t => t.reg 1 = 0xFFFFFFFE#32) := by
  decide
/-- V-R8, V-R9. -/
theorem test_mul_wraps :
    ran (exec (.mul 3 1 2) (demo 0 0x10000 0x10000 9 0 0)) (fun t => t.reg 3 = 0#32) ∧
      ran (exec (.mul 3 1 2) (demo 0 0x12345678 0x9ABCDEF0 9 0 0))
        (fun t => t.reg 3 = 0x242D2080#32) := by decide
/-- V-R12, V-R13: unsigned. -/
theorem test_div_unsigned :
    ran (exec (.div 3 1 2) (demo 0 0xFFFFFFFF 2 9 0 0)) (fun t => t.reg 3 = 0x7FFFFFFF#32) ∧
      ran (exec (.div 3 1 2) (demo 0 0x80000000 3 9 0 0)) (fun t => t.reg 3 = 0x2AAAAAAA#32) := by
  decide
/-- V-R16 and P7: the record of a division by zero. -/
theorem test_div_by_zero :
    ran (step (demo 0 7 8 9 0 0 [0x50000088]))
      (fun t => t.st = .faulted && t.reg 2 = 8#32 && t.pc = 0#32 &&
        t.statusOutput = ⟨2, some ⟨5, 0#32, some 0x50000088#32, [7]⟩⟩) := by decide
/-- V-R17, V-R19. -/
theorem test_nand :
    ran (exec (.nand 1 0 0) (demo 0 5 5 9 0 0)) (fun t => t.reg 1 = 0xFFFFFFFF#32) ∧
      ran (exec (.nand 3 1 2) (demo 0 0xF0F0F0F0 0xFF00FF00 9 0 0))
        (fun t => t.reg 3 = 0x0FFF0FFF#32) := by decide
/-- V-R20, V-R21. -/
theorem test_lv :
    ran (exec (.lv 7 0x1FFFFFF#32) (demo 0 5 5 9 0 0)) (fun t => t.reg 7 = 0x01FFFFFF#32) ∧
      ran (exec (.lv 1 0#32) (demo 0 0xFFFFFFFF 5 9 0 0)) (fun t => t.reg 1 = 0#32) := by decide
/-- R120's example; V-M6. -/
theorem test_sload :
    ran (exec (.sload 4 2 3) (demo 0 0 1 2 0 0)) (fun t => t.reg 4 = 0x41#32) ∧
      ran (exec (.sload 4 0 2) (demo 0 0 0 0 0 0)) (fun t => t.reg 4 = 0x300000CA#32) := by decide
/-- V-M2, V-M3: offset 5 of 5 words; an ID never minted. -/
theorem test_sload_faults :
    ran (exec (.sload 4 1 2) (demo 0 1 5 0 6 0))
        (fun t => t.reg 4 = 6#32 && t.fr.map (·.cause) = some (.offsetOutOfBounds 1#32 5#32 5)) ∧
      ran (exec (.sload 4 1 2) (demo 0 2 0 0 0 0))
        (fun t => t.fr.map (·.cause) = some (.unmappedSegment 2#32)) := by decide
/-- V-M1, and a stored zero leaves no listed word. -/
theorem test_sstore :
    ran (exec (.sstore 1 2 3) (demo 0 1 4 0xAB 0 0))
        (fun t => decide (t.seg.read 1#32 4#32 = .ok 0xAB#32 ∧ t.seg.read 1#32 2#32 = .ok 0x41#32)) ∧
      ran (exec (.sstore 1 2 3) (demo 0 1 2 0 0 0))
        (fun t => t.seg.find 1#32 = some ⟨5, []⟩) := by decide
/-- V-M4. -/
theorem test_sstore_out_of_bounds :
    ran (exec (.sstore 1 2 3) (demo 0 1 0xFFFFFFFF 1 0 0))
      (fun t => t.st = .faulted && t.seg = (demo 0 1 0xFFFFFFFF 1 0 0).seg) := by decide
/-- V-M7: B = C, the length 0 is read first. -/
theorem test_map_length_zero :
    ran (exec (.map 1 1) (demo 0 0 0 0 0 0))
      (fun t => t.reg 1 = 2#32 && t.next = 3#32 && t.seg.find 2#32 = some ⟨0, []⟩) := by decide
/-- V-M12: the counter has passed ID_MAX. -/
theorem test_map_ids_exhausted :
    ran (exec (.map 1 2) { demo 0 0 0 0 0 0 with next := 0xFFFFFFFE#32 })
      (fun t => t.fr.map (·.cause.code) = some 8) := by decide
/-- V-M8: unmapped, then reused with a new length and only zeros. -/
theorem test_unmap_then_map :
    ran (exec (.unmap 1) (demo 0 1 0 3 0 0)) (fun t => t.pool = [1#32] &&
      ran (exec (.map 2 3) t) (fun u => u.reg 2 = 1#32 && u.pool = [] &&
        u.seg.find 1#32 = some ⟨3, []⟩)) := by decide
/-- V-M9, V-M10. -/
theorem test_unmap_faults :
    ran (exec (.unmap 1) (demo 0 0 0 0 0 0)) (fun t => t.fr.map (·.cause.code) = some 3) ∧
      ran (exec (.unmap 1) (demo 0 1 0 0 0 0)) (fun t =>
        ran (exec (.unmap 1) t) (fun u => u.fr.map (·.cause.code) = some 1)) := by decide
/-- V-E3, V-E5: a jump; a copy over segment 0. -/
theorem test_loadp :
    ran (exec (.loadp 0 5) (demo 0 0 0 0 0 2)) (fun t => t.pc = 2#32 && t.seg = (demo 0 0 0 0 0 2).seg) ∧
      ran (exec (.loadp 1 0) (demo 0 1 0 0 0 0)) (fun t => t.pc = 0#32 &&
        t.seg.find 0#32 = some ⟨5, [(2, 0x41#32)]⟩ && t.seg.find 1#32 = some ⟨5, [(2, 0x41#32)]⟩) := by
  decide
/-- V-E4: the pc stays at the LOADP. -/
theorem test_loadp_unmapped :
    ran (exec (.loadp 5 0) (demo 0 0 0 0 0 3)) (fun t => t.pc = 0#32 &&
      t.fr.map (·.cause) = some (.unmappedSegment 3#32)) := by decide
/-- V-E7. -/
theorem test_halt :
    ran (step { demo 0 0 0 0 0 0 [0, 0, 0, 0, 0x70000000] with pc := 4#32 })
      (fun t => t.st = .halted && t.pc = 5#32) := by decide
/-- V-E8; the other illegal opcode. -/
theorem test_illegal :
    ran (step (demo 0 0 0 0 0 0 [0xF0000000])) (fun t =>
        t.statusOutput = ⟨2, some ⟨6, 0#32, some 0xF0000000#32, [15]⟩⟩) ∧
      ran (step (demo 0 0 0 0 0 0 [0xE1234567])) (fun t =>
        t.statusOutput = ⟨2, some ⟨6, 0#32, some 0xE1234567#32, [14]⟩⟩) := by decide
/-- V-I2, V-I3. -/
theorem test_out :
    ran (exec (.out 3) (demo 0 0 0 0xFF 0 0)) (fun t => t.out = [0xFF#8]) ∧
      ran (exec (.out 3) (demo 0 0 0 0x100 0 0)) (fun t => t.out = [] &&
        t.fr.map (·.cause) = some (.outputRange 0x100#32)) := by decide
/-- V-I6, V-I4. -/
theorem test_inp :
    ran (exec (.inp 1) { demo 0 0 0 0 0 0 with inRest := finiteStream [0xFF#8] })
        (fun t => t.reg 1 = 0xFF#32 && t.inRest = finiteStream [] && !t.eos) ∧
      ran (exec (.inp 1) (demo 0 0 0 0 0 0))
        (fun t => t.reg 1 = 0xFFFFFFFF#32 && t.eos && t.st = .running) := by decide
/-- V-I8: the wait. -/
theorem test_inp_waits :
    ran (step { demo 0 0 0 0 0 0 [0xB0000001] with inRest := ⟨[], .awaiting⟩ })
      (fun t => t.pc = 0#32 && t.inputRequested) := by decide
/-- V-E1: the fetch fault has no word. -/
theorem test_fetch_out_of_bounds :
    ran (step { demo 0 0 0 0 0 0 with pc := 2#32 })
      (fun t => t.statusOutput = ⟨2, some ⟨4, 2#32, none, [2, 2]⟩⟩) := by decide
/-- V-E2 through the launch of an empty image; State.reset is that launch. -/
theorem test_reset_is_the_empty_launch :
    launch (.bytes []) ⟨Config.capacityAtReset, Config.idMaxDefault⟩ freeStream = .ok State.reset ∧
      ran (step State.reset) (fun t => t.fr.map (·.cause) = some (.pcOutOfBounds 0#32 0)) := by
  decide
/-- A placed word is the first instruction after reset. -/
theorem test_withFetchWord :
    ran (step (State.reset.withFetchWord 32 0xD2000030)) (fun t => t.reg 1 = 48#32 && t.pc = 1#32) ∧
      ran (step (State.reset.withFetchWord 32 0xB0000001)) (fun t => t.pc = 1#32) := by decide

/-! ### The codec (V-C*) -/

theorem test_codec_extract :
    Codec.extractUnsigned 0x3F4#64 6 2 = .ok 61#64 ∧ Codec.extractSigned 0x3F4#64 6 2 = .ok (-3#64) ∧
      Codec.extractUnsigned 0xFFFFFFFFFFFFFFFF#64 0 64 = .ok 0#64 ∧
      Codec.extractSigned 0xDEADBEEF#64 16 16 = .ok (-8531#64) ∧
      Codec.extractUnsigned 0xFFFFFFFFFFFFFFFF#64 8 57 = .error (.bitFieldOverflow 8 (some 57) none) := by
  decide
theorem test_codec_insert :
    Codec.insertUnsigned 0xFFFF#64 4 4 5#64 = .ok 0xFF5F#64 ∧
      Codec.insertUnsigned 0xFFFFFFFFFFFFFFFF#64 8 56 0#64 = .ok 0x00FFFFFFFFFFFFFF#64 ∧
      Codec.insertUnsigned 0x1234#64 0 64 0#64 = .ok 0x1234#64 ∧
      Codec.insertSigned 0#64 6 2 (-3#64) = .ok 0xF4#64 ∧
      Codec.insertSigned 0#64 4 0 (-8#64) = .ok 8#64 ∧
      Codec.insertSigned 0#64 4 0 8#64 = .error (.bitFieldOverflow 4 (some 0) (some 8)) := by decide
theorem test_codec_fits :
    Codec.port (.fitsSigned (-1#64) 1) = .ok (.truth true) ∧
      Codec.port (.fitsSigned 1#64 1) = .ok (.truth false) ∧
      Codec.port (.fitsUnsigned 1#64 0) = .ok (.truth false) ∧
      Codec.port (.fitsUnsigned 0#64 65) = .error (.bitFieldOverflow 65 none (some 0)) := by decide

/-! ### Witnesses: a concrete state and operands for the hypotheses of each statement, and for each
clause of a statement that has several -/

theorem witness_DecodeOfEncode : (Instr.lv 7 0x1FFFFFF#32).WellFormed := by decide

/-- One pair of words for each number of used bits: 9, 6, 3 and none. -/
theorem witness_IgnoredBits :
    (∀ k < usedLowBits 3, (0x3FFFFECA#32).getLsbD k = (0x300000CA#32).getLsbD k) ∧
      (∀ k < usedLowBits 8, (0x8FFFFFD1#32).getLsbD k = (0x80000011#32).getLsbD k) ∧
      (∀ k < usedLowBits 9, (0x9FFFFFFA#32).getLsbD k = (0x90000002#32).getLsbD k) ∧
      (∀ k < usedLowBits 7, (0x7FFFFFFF#32).getLsbD k = (0x70000000#32).getLsbD k) := by decide

theorem witness_EncodedAs :
    ((0x300000CA#32).extractLsb' 28 4).toNat = 3 ∧ ((0xD2000030#32).extractLsb' 28 4).toNat = 13 ∧
      ((0x7FFFFFFF#32).extractLsb' 28 4).toNat = 7 ∧ ((0xE0000000#32).extractLsb' 28 4).toNat = 14 ∧
      ((0xFFFFFFFF#32).extractLsb' 28 4).toNat = 15 := by decide

theorem witness_Cmov : (demo 0 5 1 9 0 0).reg 2 ≠ 0#32 ∧ (demo 0 5 0 9 0 0).reg 2 = 0#32 := by decide

theorem witness_Div : (demo 0 5 1 9 0 0).reg 2 ≠ 0#32 ∧ (demo 0 5 0 9 0 0).reg 2 = 0#32 := by decide

/-- The last offset of a segment, the first beyond it, and an ID that is not mapped. -/
theorem witness_Sload_Sstore :
    (demo 0 1 4 0 0 0).seg.find ((demo 0 1 4 0 0 0).reg 1) = some ⟨5, [(2, 0x41#32)]⟩ ∧
      ((demo 0 1 4 0 0 0).reg 2).toNat < 5 ∧ 5 ≤ ((demo 0 1 5 0 0 0).reg 2).toNat ∧
      (demo 0 2 0 0 0 0).seg.find ((demo 0 2 0 0 0 0).reg 1) = none := by decide

/-- The reuse clause, the mint clause at next = ID_MAX, exhaustion at ID_MAX + 1, and a length one
word above what the capacity leaves (7 words are used). -/
theorem witness_Map :
    ({ demo 0 0 0 0 0 0 with pool := [2#32], next := 3#32 } : State).pool = [2#32] ∧
      (demo 0 0 0 0 0 0).seg.used + ((demo 0 0 (2 ^ 32 - 7) 0 0 0).reg 2).toNat ≤ 2 ^ 32 ∧
      ({ demo 0 0 0 0 0 0 with next := 0xFFFFFFFD#32 } : State).next.toNat ≤ Config.idMaxDefault.toNat ∧
      Config.idMaxDefault.toNat < ({ demo 0 0 0 0 0 0 with next := 0xFFFFFFFE#32 } : State).next.toNat ∧
      (demo 0 0 0 0 0 0).params.memCapacityWords <
        (demo 0 0 0 0 0 0).seg.used + ((demo 0 0 (2 ^ 32 - 6) 0 0 0).reg 2).toNat ∧
      (demo 0 0 0 0 0 0).pool = [] := by decide

theorem witness_Unmap :
    (demo 0 1 0 0 0 0).reg 1 ≠ 0#32 ∧ (demo 0 1 0 0 0 0).mapped ((demo 0 1 0 0 0 0).reg 1) ∧
      (demo 0 0 0 0 0 0).reg 1 = 0#32 ∧ ¬ (demo 0 2 0 0 0 0).mapped ((demo 0 2 0 0 0 0).reg 1) := by
  decide

/-- A copy that just fits the capacity, and one that exceeds it by one word. -/
theorem witness_Loadp :
    let s (cap : Nat) : State := { demo 0 1 0 0 0 0 with params := ⟨cap, Config.idMaxDefault⟩ }
    (s 10).reg 0 = 0#32 ∧ (s 10).reg 1 ≠ 0#32 ∧ (s 10).seg.find 1#32 = some ⟨5, [(2, 0x41#32)]⟩ ∧
      (s 10).seg.used - (s 10).seg.programLength + 5 ≤ (s 10).params.memCapacityWords ∧
      (s 9).params.memCapacityWords < (s 9).seg.used - (s 9).seg.programLength + 5 ∧
      ¬ (demo 0 2 0 0 0 0).mapped 2#32 := by decide

theorem witness_Out :
    ((demo 0 0 0 255 0 0).reg 3).toNat ≤ 255 ∧ 255 < ((demo 0 0 0 256 0 0).reg 3).toNat := by decide

/-- The four kinds of input stream, and a delivered end-of-stream. -/
theorem witness_In :
    let s (r : InputRest) : State := { demo 0 0 0 0 0 0 with inRest := r }
    (s (finiteStream [0xFF#8])).eos = false ∧ (s (finiteStream [0xFF#8])).inRest = ⟨0xFF#8 :: [], .closed⟩ ∧
      (s (finiteStream [])).inRest = ⟨[], .closed⟩ ∧ (s ⟨[], .awaiting⟩).inRest = ⟨[], .awaiting⟩ ∧
      (s freeStream).inRest = ⟨[], .host 0⟩ ∧ ({ s (finiteStream []) with eos := true } : State).eos = true := by
  decide

/-- An engine that waits at an IN. -/
theorem witness_Waiting :
    ({ demo 0 0 0 0 0 0 [0xB0000001] with inRest := ⟨[], .awaiting⟩ } : State).inputRequested = true := by
  decide

theorem witness_StoreThenLoad :
    (demo 0 1 4 7 0 0).seg.find ((demo 0 1 4 7 0 0).reg 1) = some ⟨5, [(2, 0x41#32)]⟩ ∧
      ((demo 0 1 4 7 0 0).reg 2).toNat < 5 := by decide

/-- Registers 1 and 2 hold two mapped IDs, register 3 the new length; destinations 4, 5 and 6. -/
theorem witness_FreedIds :
    (demo2 1 2 5).pool = [] ∧ (demo2 1 2 5).reg 1 ≠ (demo2 1 2 5).reg 2 ∧
      (demo2 1 2 5).reg 1 ≠ 0#32 ∧ (demo2 1 2 5).reg 2 ≠ 0#32 ∧
      (demo2 1 2 5).mapped ((demo2 1 2 5).reg 1) ∧ (demo2 1 2 5).mapped ((demo2 1 2 5).reg 2) ∧
      (3 : Reg) ≠ 4 ∧ (3 : Reg) ≠ 5 ∧ (demo2 1 2 5).next.toNat ≤ (demo2 1 2 5).params.idMax.toNat ∧
      (demo2 1 2 5).seg.used + 3 * ((demo2 1 2 5).reg 3).toNat ≤
        (demo2 1 2 5).params.memCapacityWords := by decide

/-- A fetch inside segment 0 (and its decoding), and one at its length. -/
theorem witness_Step :
    (demo 0 0 0 0 0 0).st = .running ∧ (demo 0 0 0 0 0 0).seg.read 0#32 0#32 = .ok 0x300000CA#32 ∧
      decode 0x300000CA#32 = .ok (.add 3 1 2) ∧
      (demo 0 0 0 0 0 0).seg.find 0#32 = some ⟨2, [(0, 0x300000CA#32), (1, 0x70000000#32)]⟩ ∧
      2 ≤ ({ demo 0 0 0 0 0 0 with pc := 2#32 } : State).pc.toNat := by decide

/-- A faulting step by an instruction and one by a fetch; a step that halts; one that does neither. -/
theorem witness_StepOutcomes :
    ran (step (demo 0 7 0 0 0 0 [0x50000088])) (fun t => t.st = .faulted && t.fr.isSome) ∧
      ran (step { demo 0 0 0 0 0 0 with pc := 2#32 }) (fun t => t.st = .faulted && t.fr.isSome) ∧
      ran (step (demo 0 0 0 0 0 0 [0x70000000])) (fun t => t.st = .halted) ∧
      ran (step (demo 0 0 0 0 0 0)) (fun t => t.st = .running && t.reg 3 = 0#32) := by decide

theorem witness_Terminal :
    ({ demo 0 0 0 0 0 0 with st := .halted } : State).st = .halted ∧
      ({ demo 0 0 0 0 0 0 with st := .faulted } : State).st = .faulted := by decide

theorem witness_Registers :
    (0 : Reg) ∉ writes (.add 3 1 2) ∧ (0 : Reg) ∉ reads (.add 3 1 2) ∧
      ran (exec (.add 3 1 2) (demo 0 0 0 0 0 0)) (fun _ => true) ∧
      ran (exec (.add 3 1 2) ((demo 0 0 0 0 0 0).setReg 0 9#32)) (fun _ => true) := by decide

theorem witness_OtherInstructions :
    ran (step (demo 0 0 0 0 0 0)) (fun _ => true) ∧
      ((0x300000CA#32).extractLsb' 28 4).toNat ∉ [2, 8, 9, 12] := by decide

theorem witness_StoreIntoTheProgram :
    (demo 0 1 0x70000000 0 0 0).st = .running ∧ (demo 0 1 0x70000000 0 0 0).reg 0 = 0#32 ∧
      (demo 0 1 0x70000000 0 0 0).reg 1 = (demo 0 1 0x70000000 0 0 0).pc + 1#32 ∧
      ((demo 0 1 0x70000000 0 0 0).reg 1).toNat < 2 ∧
      decode ((demo 0 1 0x70000000 0 0 0).reg 2) = .ok .halt := by decide

theorem witness_MemoryForm :
    (demo 0 0 0 0 0 0).seg.wf ∧ ran (step (demo 0 0 0 0 0 0)) (fun _ => true) := by decide

/-- The invariant holds of a state with a mapped segment, an ID in the pool and a counter at 3. -/
theorem witness_Inv : ({ demo 0 0 0 0 0 0 with pool := [2#32], next := 3#32 } : State).Inv := by
  have hf : ∀ id : Word,
      ({ demo 0 0 0 0 0 0 with pool := [2#32], next := 3#32 } : State).mapped id ↔ id.toNat < 2 := by
    intro id
    simp only [State.mapped, demo, Memory.find, assocFind]
    split
    · simp; omega
    · split
      · simp; omega
      · simp; omega
  refine ⟨⟨by decide, (hf _).2 (by decide), ?_, by decide, ?_, ?_, by decide, ?_, by decide,
    by decide, by decide, by decide⟩, ⟨by decide, by decide⟩⟩
  · intro id h _
    have := (hf id).1 h
    simp only [BitVec.toNat_ofNat]
    omega
  · intro id h
    rw [List.mem_singleton.1 h]
    exact ⟨by decide, by decide⟩
  · intro id h hm
    rw [List.mem_singleton.1 h] at hm
    exact absurd ((hf _).1 hm) (by decide)
  · intro id _ h
    rw [hf]
    have h3 : id.toNat < 3 := h
    by_cases e : id.toNat = 2
    · exact .inr (List.mem_singleton.2 (BitVec.eq_of_toNat_eq e))
    · left; omega

/-- In that state: a step is taken; a MAP answers without a fault; the fetch reads a word, not a
LOADP; segment 1 stays mapped with its length. -/
theorem witness_InvStatements :
    let s : State := { demo 0 0 0 0 0 0 with pool := [2#32], next := 3#32 }
    s.st = .running ∧ ran (exec (.map 1 2) s) (fun t => decide (t.st ≠ .faulted)) ∧
      s.seg.read 0#32 s.pc = .ok 0x300000CA#32 ∧
      ((0x300000CA#32).extractLsb' 28 4).toNat ≠ 12 ∧
      (s.seg.find 1#32).isSome ∧ ran (step s) (fun t => (t.seg.find 1#32).isSome) := by decide

/-- 95_test_vectors.md P1's first two words as an image: accepted, and a step follows. -/
theorem witness_Launch :
    let bs : List Byte := [0xD2#8, 0#8, 0#8, 0x30#8, 0xD4#8, 0#8, 0#8, 6#8]
    ∃ s, launch (.bytes bs) ⟨2, 0xFFFFFFFE#32⟩ (finiteStream []) = .ok s ∧
      (0xFFFFFFFE#32 : Word).toNat < 2 ^ 32 - 1 ∧ bs.length % 4 = 0 ∧ bs.length / 4 ≤ 2 ^ 32 - 1 ∧
      bs.length / 4 ≤ 2 ∧ Reaches s s ∧ ran (step s) (fun t => t.reg 1 = 48#32) :=
  ⟨_, rfl, by decide, by decide, by decide, by decide, .refl, by decide⟩

/-- The three refusals of an image: a broken word, one word above the capacity, and an image of 2^32
words. -/
theorem witness_LaunchRefused :
    [0#8, 0#8, 0#8].length % 4 ≠ 0 ∧
      (⟨1, Config.idMaxDefault⟩ : Params).memCapacityWords < (List.replicate 8 (0#8 : Byte)).length / 4 ∧
      2 ^ 32 - 1 < (List.replicate (4 * 2 ^ 32) (0#8 : Byte)).length / 4 := by
  refine ⟨by decide, by decide, ?_⟩
  rw [List.length_replicate]
  decide

/-- Codec: widths and offsets at the domain's edge and one past it; values at the edge of a field. -/
theorem witness_Codec :
    (0 ≤ 64 ∧ 0 + 64 ≤ 64 ∧ 64 + 0 ≤ 64 ∧ 64 < 65 ∧ 64 < 8 + 57) ∧
      (15#64 : CodecWord).toNat < 2 ^ 4 ∧ 2 ^ 4 ≤ (16#64 : CodecWord).toNat ∧
      Codec.fitsSigned (-8#64) 4 = .ok true ∧ Codec.fitsSigned 8#64 4 = .ok false ∧
      Codec.fitsSigned 0#64 0 = .ok true ∧ Codec.fitsUnsigned 15#64 4 = .ok true := by decide

end Sys2Proof.Machine.Tests
end

section
/-! PROOFS. The input port's free stream (00_scope.md R12, 44_io_port.md R161, R163; log entry 1), and
the rules about `State.finish` and IN that its proof is made of. -/

namespace Sys2Proof.Machine

/-- The rule for every completing instruction with a destination: `finish` writes that register and
moves pc, and nothing else. -/
theorem wroteOnly_finish (s : State) (a : Reg) (v : Word) : s.WroteOnly (s.finish a v) a v where
  value := reg_finish_self s a v
  others _ h := reg_finish_ne s a v h
  memory _ _ := rfl
  rest := rfl

/-- An IN that the port answers completes: the answer's value in its register, the answer's stream and
eos flag in the port. -/
theorem exec_inp_of_input {c : Reg} {s : State} {a : InputAnswer} {rest : InputRest} {e : Bool}
    (h : s.input = some (a, rest, e)) :
    exec (.inp c) s = .next ({ s with inRest := rest, eos := e }.finish c (inputValue a)) := by
  simp only [exec, execInp, h]

/-- A byte is zero-extended: its value is kept (R163). -/
@[simp] theorem toNat_inputValue_byte (b : Byte) : (inputValue (.byte b)).toNat = b.toNat :=
  BitVec.toNat_setWidth_of_le (by decide)

/-- On the free stream the port answers at once, with the host's free answer at the position. -/
theorem input_of_host {s : State} {pos : Nat} (he : s.eos = false)
    (hr : s.inRest = ⟨[], .host pos⟩) :
    s.input = some (hostInput pos (Config.hostAnswer pos)) := by
  simp [State.input, he, hr]

/-- Settles O23, by the two answers the host may give at the position. -/
theorem inTakesTheHostsFreeAnswer : Obligations.InTakesTheHostsFreeAnswer := by
  intro c s pos he hr
  have hin := input_of_host he hr
  cases ha : Config.hostAnswer pos with
  | some b =>
    rw [ha] at hin
    -- the eos flag a byte leaves is the one that stood there
    have heos : { s with inRest := ⟨[], .host (pos + 1)⟩, eos := false } =
        { s with inRest := ⟨[], .host (pos + 1)⟩ } := by rw [← he]
    exact ⟨_, exec_inp_of_input hin, _, toNat_inputValue_byte b, heos ▸ wroteOnly_finish _ c _⟩
  | none =>
    rw [ha] at hin
    exact ⟨_, exec_inp_of_input hin, wroteOnly_finish _ c _⟩

end Sys2Proof.Machine
end

section
/-! PROOFS. What the statements about a step rest on: the opcode of a decoded word, the fetch as a read
of memory, and a meaning in two halves, its access to the memory and the ports (`Access`) and the way it
ends (`Ending`). -/

namespace Sys2Proof.Machine

variable {s t u : State} {i : Instr} {w : Word}

/-! ### The word fetched -/

theorem toNat_opcodeBits (w : Word) : (w.extractLsb' 28 4).toNat = w.toNat / 2 ^ 28 := by
  rw [BitVec.extractLsb'_toNat, Nat.shiftRight_eq_div_pow]
  exact Nat.mod_eq_of_lt (by omega)

/-- The row an opcode selects decodes to an instruction of that opcode. -/
theorem opcode_of_decodeOp {k : Fin 16} (h : decodeOp w k = .ok i) : i.opcode = k := by
  obtain ⟨k, hk⟩ := k
  interval_cases k <;> simp only [decodeOp, withABC_ok, withImm_ok, Except.ok.injEq] at h <;>
    subst h <;> rfl

/-- The decoder's instruction has the opcode in bits [31:28] (30_encoding.md R61, R69). -/
theorem opcodeBits_of_decode (h : decode w = .ok i) : (w.extractLsb' 28 4).toNat = i.opcode := by
  rw [decode_eq] at h
  rw [opcode_of_decodeOp h, toNat_opcodeBits, Fin.val_ofNat]
  exact (Nat.mod_eq_of_lt (by omega)).symm

/-- The fetch is MemRead of segment 0 at pc (20_memory.md R43). -/
theorem fetch_eq_ok_iff_read : s.fetch = .ok w ↔ s.seg.read 0#32 s.pc = .ok w := by
  rw [fetch_eq_ok, Memory.read_eq_ok]

/-- The step of a Running engine is exec of the instruction fetched (43_engine_control.md R141). -/
theorem step_eq_exec (hrun : s.st = .running) (hread : s.seg.read 0#32 s.pc = .ok w)
    (hdec : decode w = .ok i) : step s = exec i s := by
  unfold step
  rw [hrun, fetch_eq_ok_iff_read.2 hread]
  simp only [hdec]

/-! ### The two halves of a completing instruction -/

/-- What a completing instruction does to the memory, the segment pool and the ports before it moves on:
nothing, or the one access its opcode makes. -/
inductive Access (s : State) : Instr → State → Prop where
  | idle {i : Instr} : Access s i s
  | store {a b c : Reg} {m : Memory} (h : s.seg.write (s.reg a) (s.reg b) (s.reg c) = .ok m) :
    Access s (.sstore a b c) { s with seg := m }
  | map {b c : Reg} {id : Word} {u : State} (h : s.mapSegment (s.reg c) = .ok (id, u)) :
    Access s (.map b c) u
  | unmap {c : Reg} {u : State} (h : s.unmapSegment (s.reg c) = .ok u) : Access s (.unmap c) u
  | load {b c : Reg} {u : State} (h : s.loadProgram (s.reg b) = .ok u) : Access s (.loadp b c) u
  | output {c : Reg} : Access s (.out c) (s.output (byteOperand (s.reg c)))
  | input {c : Reg} {a : InputAnswer} {rest : InputRest} {e : Bool}
    (h : s.input = some (a, rest, e)) : Access s (.inp c) { s with inRest := rest, eos := e }

/-- How a completing instruction ends once its access is made, s being the state before both: a result
in a register it writes, the next index alone, the halt, or LOADP's jump. -/
inductive Ending (s u : State) : Instr → State → Prop where
  | finish {i : Instr} {a : Reg} {v : Word} (h : a ∈ writes i) : Ending s u i (u.finish a v)
  | advance {i : Instr} (h : ∀ b c, i ≠ .loadp b c) : Ending s u i u.advance
  | halt : Ending s u .halt u.advance.haltEngine
  | jump {b c : Reg} : Ending s u (.loadp b c) (u.setPc (s.reg c))

/-- An instruction faults with nothing committed, or is an IN that waits, or completes: an access and
an ending. -/
theorem effect_cases (h : Effect s i t) :
    (∃ f, t = s.raise f) ∨ (∃ c, i = .inp c ∧ s.input = none ∧ t = s) ∨
      ∃ u, Access s i u ∧ Ending s u i t := by
  cases h with
  | divFault | sloadFault | sstoreFault | mapFault | unmapFault | loadpFault | outFault | illegal14
  | illegal15 => exact .inl ⟨_, rfl⟩
  | waits h => exact .inr (.inl ⟨_, rfl, h, rfl⟩)
  | cmov | add | mul | div | nand | lv | sload =>
    exact .inr (.inr ⟨s, .idle, .finish (List.mem_singleton_self _)⟩)
  | moved => exact .inr (.inr ⟨s, .idle, .advance nofun⟩)
  | sstore h => exact .inr (.inr ⟨_, .store h, .advance nofun⟩)
  | map h => exact .inr (.inr ⟨_, .map h, .finish (List.mem_singleton_self _)⟩)
  | unmap h => exact .inr (.inr ⟨_, .unmap h, .advance nofun⟩)
  | halt => exact .inr (.inr ⟨s, .idle, .halt⟩)
  | loadp h => exact .inr (.inr ⟨_, .load h, .jump⟩)
  | out => exact .inr (.inr ⟨_, .output, .advance nofun⟩)
  | inp h => exact .inr (.inr ⟨_, .input h, .finish (List.mem_singleton_self _)⟩)

/-- What a step can do, for an invariant: it is taken while Running, and it faults, or waits, or is the
access and the ending of the instruction fetched. -/
theorem step_access_ending (h : step s = .next t) :
    s.st = .running ∧ ((∃ f, t = s.raise f) ∨ t = s ∨
      ∃ w i u, s.seg.read 0#32 s.pc = .ok w ∧ decode w = .ok i ∧ Access s i u ∧ Ending s u i t) := by
  obtain ⟨hrun, ⟨-, rfl⟩ | ⟨w, i, hf, hd, -, he⟩⟩ := step_cases h
  · exact ⟨hrun, .inl ⟨_, rfl⟩⟩
  · refine ⟨hrun, ?_⟩
    obtain hfault | ⟨-, -, -, rfl⟩ | ⟨u, ha, hu⟩ := effect_cases he
    · exact .inl hfault
    · exact .inr (.inl rfl)
    · exact .inr (.inr ⟨w, i, u, fetch_eq_ok_iff_read.1 hf, hd, ha, hu⟩)

/-! ### Frames of the two halves -/

/-- An access is to the memory and its manager alone, or is OUT's or IN's to its port. -/
theorem Access.memory_or_port (h : Access s i u) :
    u = { s with seg := u.seg, pool := u.pool, next := u.next } ∨
      (∃ c, i = .out c ∧ u = s.output (byteOperand (s.reg c))) ∨
      ∃ c a rest e, i = .inp c ∧ s.input = some (a, rest, e) ∧
        u = { s with inRest := rest, eos := e } := by
  cases h with
  | idle | store => exact .inl rfl
  | map h => obtain ⟨_, _, -, -, rfl⟩ := mapSegment_eq_ok.1 h; exact .inl rfl
  | unmap h => obtain ⟨-, -, rfl⟩ := unmapSegment_eq_ok.1 h; exact .inl rfl
  | load h => obtain ⟨_, -, rfl⟩ := loadProgram_eq_ok.1 h; exact .inl rfl
  | output => exact .inr (.inl ⟨_, rfl, rfl⟩)
  | input h => exact .inr (.inr ⟨_, _, _, _, rfl, h, rfl⟩)

/-- An access leaves the registers, pc, the engine state, the record and the parameters. -/
theorem Access.frame (h : Access s i u) :
    u = { s with seg := u.seg, pool := u.pool, next := u.next, out := u.out,
                 inRest := u.inRest, eos := u.eos } := by
  obtain hu | ⟨c, -, rfl⟩ | ⟨c, a, rest, e, -, -, rfl⟩ := h.memory_or_port
  · rw [hu]
  · rfl
  · rfl

/-- An ending changes registers, pc and the engine state only. -/
theorem Ending.frame (h : Ending s u i t) : t = { u with regs := t.regs, pc := t.pc, st := t.st } := by
  cases h <;> rfl

theorem Access.reg_eq (h : Access s i u) (r : Reg) : u.reg r = s.reg r := by
  rw [h.frame]; rfl

theorem Access.pc_eq (h : Access s i u) : u.pc = s.pc := by rw [h.frame]

theorem Access.st_eq (h : Access s i u) : u.st = s.st := by rw [h.frame]

theorem Access.fr_eq (h : Access s i u) : u.fr = s.fr := by rw [h.frame]

theorem Access.params_eq (h : Access s i u) : u.params = s.params := by rw [h.frame]

theorem Ending.fr_eq (h : Ending s u i t) : t.fr = u.fr := by rw [h.frame]

theorem Ending.seg_eq (h : Ending s u i t) : t.seg = u.seg := by rw [h.frame]

theorem Ending.pool_eq (h : Ending s u i t) : t.pool = u.pool := by rw [h.frame]

theorem Ending.next_eq (h : Ending s u i t) : t.next = u.next := by rw [h.frame]

theorem Ending.out_eq (h : Ending s u i t) : t.out = u.out := by rw [h.frame]

theorem Ending.inRest_eq (h : Ending s u i t) : t.inRest = u.inRest := by rw [h.frame]

theorem Ending.eos_eq (h : Ending s u i t) : t.eos = u.eos := by rw [h.frame]

theorem Ending.params_eq (h : Ending s u i t) : t.params = u.params := by rw [h.frame]

/-- An ending keeps the engine Running unless it halts it. -/
theorem Ending.st_cases (h : Ending s u i t) : t.st = u.st ∨ t.st = .halted := by
  cases h with
  | finish | advance | jump => exact .inl rfl
  | halt => exact .inr rfl

/-- An ending writes no register but those the instruction lists (10_state.md R21). -/
theorem Ending.reg_eq {r : Reg} (h : Ending s u i t) (hr : r ∉ writes i) : t.reg r = u.reg r := by
  cases h with
  | finish ha => exact reg_finish_ne _ _ _ fun e => hr (e ▸ ha)
  | advance | halt | jump => rfl

/-- An ending sets pc to the next index, or to x[C] for LOADP (10_state.md R23). -/
theorem Ending.pc_cases (h : Ending s u i t) :
    (∃ b c, i = .loadp b c ∧ t.pc = s.reg c) ∨ ((∀ b c, i ≠ .loadp b c) ∧ t.pc = u.pc + 1#32) := by
  cases h with
  | finish ha => exact .inr ⟨fun b c e => by subst e; exact absurd ha List.not_mem_nil, rfl⟩
  | advance h => exact .inr ⟨h, rfl⟩
  | halt => exact .inr ⟨nofun, rfl⟩
  | jump => exact .inl ⟨_, _, rfl, rfl⟩

end Sys2Proof.Machine
end

section
/-! PROOFS. The memory manager's invariants (10_state.md R29): each access keeps the canonical form of
memory and the invariants, and no access resizes a segment or lowers the counter. -/

namespace Sys2Proof.Machine

variable {s u : State} {i : Instr} {m m' : Memory} {id id' : Word} {g : Segment} {cap : Nat}

/-! ### What is mapped after each operation -/

theorem Memory.find_put_ne_none :
    Memory.find (assocPut id.toNat g m) id' ≠ none ↔ id' = id ∨ m.find id' ≠ none := by
  by_cases h : id' = id
  · subst h; simp [Memory.find_put_self]
  · simp [Memory.find_put_ne h, h]

theorem Memory.find_del_ne_none :
    Memory.find (assocDel id.toNat m) id' ≠ none ↔ id' ≠ id ∧ m.find id' ≠ none := by
  by_cases h : id' = id
  · subst h; simp [Memory.find_del_self]
  · simp [Memory.find_del_ne h, h]

/-- A Dup maps and unmaps nothing, if segment 0 was mapped. -/
theorem Memory.dup_mapped (h0 : m.find 0#32 ≠ none) (h : m.dup cap id = .ok m') :
    m'.find id' ≠ none ↔ m.find id' ≠ none := by
  rcases Memory.dup_eq_ok.1 h with ⟨-, rfl⟩ | ⟨-, g, -, -, rfl⟩
  · rfl
  · exact (Memory.find_put_ne_none (id := 0#32)).trans
      ⟨fun h => h.elim (fun e => e ▸ h0) fun h => h, .inr⟩

/-! ### The canonical form -/

/-- Every access keeps the canonical form of memory (20_memory.md R40). -/
theorem Access.memory_wf (h : Access s i u) (hw : s.seg.wf) : u.seg.wf := by
  cases h with
  | idle | output | input => exact hw
  | store h => exact Memory.write_wf hw h
  | map h =>
    obtain ⟨_, _, -, -, rfl⟩ := mapSegment_eq_ok.1 h
    exact Memory.put_wf hw (Segment.zeros_wf (s.reg _).isLt)
  | unmap h =>
    obtain ⟨-, -, rfl⟩ := unmapSegment_eq_ok.1 h
    exact Memory.del_wf hw
  | load h =>
    obtain ⟨_, hd, rfl⟩ := loadProgram_eq_ok.1 h
    exact Memory.dup_wf hw hd

/-- Settles O39, through the one access a completing step makes. -/
theorem stepKeepsTheMemoryForm : Obligations.StepKeepsTheMemoryForm := by
  intro s t hw hs
  obtain ⟨-, ⟨f, rfl⟩ | rfl | ⟨w, i, u, -, -, ha, he⟩⟩ := step_access_ending hs
  · exact hw
  · exact hw
  · rw [he.seg_eq]
    exact ha.memory_wf hw

end Sys2Proof.Machine
end

section
/-! PROOFS. The state's invariant (10_state.md R25, R29, 44_io_port.md R161): every access keeps the
manager's part, every step keeps the whole. -/

namespace Sys2Proof.Machine

variable {s t u : State} {i : Instr} {id n next : Word} {pool : List Word} {m : Memory}

/-! ### The manager's invariants under each primitive -/

/-- The manager's invariants speak of the segment table, the pool, the counter and the parameters
only. -/
theorem State.ManagerInv.congr (hs : s.ManagerInv) (hseg : t.seg = s.seg) (hpool : t.pool = s.pool)
    (hnext : t.next = s.next) (hparams : t.params = s.params) : t.ManagerInv := by
  cases s; cases t
  simp only at hseg hpool hnext hparams
  subst hseg hpool hnext hparams
  exact ⟨hs.memory, hs.zeroMapped, hs.mappedBelow, hs.idsAreWords, hs.poolRange, hs.poolUnmapped,
    hs.poolOnce, hs.accounted, hs.withinCapacity, hs.counterPos, hs.counterBound, hs.idMaxBound⟩

/-- A canonical memory with the same mapped IDs, within the capacity, may take the old one's place. -/
theorem State.ManagerInv.withMemory (hs : s.ManagerInv) (hw : m.wf)
    (hids : ∀ e ∈ m, e.1 < 2 ^ 32) (hmap : ∀ id, m.find id ≠ none ↔ s.mapped id)
    (hused : m.used ≤ s.params.memCapacityWords) : ({ s with seg := m } : State).ManagerInv where
  memory := hw
  zeroMapped := (hmap _).2 hs.zeroMapped
  mappedBelow id h := hs.mappedBelow id ((hmap id).1 h)
  idsAreWords := hids
  poolRange := hs.poolRange
  poolUnmapped id h hm := hs.poolUnmapped id h ((hmap id).1 hm)
  poolOnce := hs.poolOnce
  accounted id h0 h := (hs.accounted id h0 h).imp_left (hmap id).2
  withinCapacity := hused
  counterPos := hs.counterPos
  counterBound := hs.counterBound
  idMaxBound := hs.idMaxBound

/-- A write under an ID keeps every listed ID a Word. -/
theorem Memory.put_idsAreWords {g : Segment} (hm : ∀ e ∈ m, e.1 < 2 ^ 32) :
    ∀ e ∈ assocPut id.toNat g m, e.1 < 2 ^ 32 := by
  intro e he
  rcases mem_assocPut he with rfl | he
  · exact id.isLt
  · exact hm e he

theorem State.ManagerInv.write {o v : Word} (hs : s.ManagerInv) (h : s.seg.write id o v = .ok m) :
    ({ s with seg := m } : State).ManagerInv := by
  refine hs.withMemory (Memory.write_wf hs.memory h) ?_ (fun _ => Memory.write_mapped h) ?_
  · obtain ⟨g, -, -, rfl⟩ := Memory.write_eq_ok.1 h
    exact Memory.put_idsAreWords hs.idsAreWords
  · rw [Memory.write_used hs.memory.1 h]
    exact hs.withinCapacity

theorem State.ManagerInv.loadProgram (hs : s.ManagerInv) (h : s.loadProgram id = .ok u) :
    u.ManagerInv := by
  obtain ⟨m, hd, rfl⟩ := loadProgram_eq_ok.1 h
  refine hs.withMemory (Memory.dup_wf hs.memory hd) ?_ (fun _ => Memory.dup_mapped hs.zeroMapped hd)
    (Memory.dup_used_le hs.memory.1 hs.zeroMapped hs.withinCapacity hd)
  rcases Memory.dup_eq_ok.1 hd with ⟨-, rfl⟩ | ⟨-, g, -, -, rfl⟩
  · exact hs.idsAreWords
  · exact Memory.put_idsAreWords (id := 0#32) hs.idsAreWords

/-- What the choice of an ID by MAP (20_memory.md R44, R45) does to the account of the IDs: id leaves
the pool or becomes the last ID below the counter, and was not mapped. -/
structure State.Allocates (s : State) (id : Word) (pool : List Word) (next : Word) : Prop where
  nonzero : id ≠ 0#32
  unmapped : ¬ s.mapped id
  idBelow : id.toNat < next.toNat
  below : ∀ x : Word, x.toNat < next.toNat → x = id ∨ x.toNat < s.next.toNat
  poolIff : ∀ x, x ∈ pool ↔ x ∈ s.pool ∧ x ≠ id
  poolOnce : pool.Nodup
  nextMono : s.next.toNat ≤ next.toNat
  nextBound : next.toNat ≤ s.params.idMax.toNat + 1

/-- Under the invariant the counter's increment is exact while it has not passed ID_MAX. -/
theorem State.ManagerInv.toNat_next_succ (hs : s.ManagerInv)
    (h : s.next.toNat ≤ s.params.idMax.toNat) : (s.next + 1#32).toNat = s.next.toNat + 1 := by
  have := hs.idMaxBound
  rw [BitVec.toNat_add]
  exact Nat.mod_eq_of_lt (by simp; omega)

/-- Under the invariant the ID that a MAP chooses is fresh, taken from the pool or minted. -/
theorem State.ManagerInv.chooseId_allocates (hs : s.ManagerInv)
    (h : s.chooseId = .ok (id, pool, next)) : s.Allocates id pool next := by
  rcases chooseId_eq_ok.1 h with ⟨hp, rfl⟩ | ⟨hp, rfl, hmax, rfl, rfl⟩
  · have hmem : id ∈ s.pool := hp ▸ List.mem_cons_self
    obtain ⟨hid, hpool⟩ := List.nodup_cons.1 (hp ▸ hs.poolOnce)
    exact {
      nonzero := (hs.poolRange id hmem).1
      unmapped := hs.poolUnmapped id hmem
      idBelow := (hs.poolRange id hmem).2
      below := fun _ => .inr
      poolIff := fun x => by
        rw [hp, List.mem_cons]
        exact ⟨fun hx => ⟨.inr hx, fun e => hid (e ▸ hx)⟩, fun ⟨hx, hne⟩ => hx.resolve_left hne⟩
      poolOnce := hpool
      nextMono := le_rfl
      nextBound := hs.counterBound }
  · have hsucc := hs.toNat_next_succ hmax
    have hpos : s.next ≠ 0#32 := fun e => by simpa [e] using hs.counterPos
    exact {
      nonzero := hpos
      unmapped := fun hm => lt_irrefl _ (hs.mappedBelow _ hm hpos)
      idBelow := by omega
      below := fun x hx => by
        by_cases e : x.toNat = s.next.toNat
        · exact .inl (BitVec.eq_of_toNat_eq e)
        · exact .inr (by omega)
      poolIff := fun x => by simp [hp]
      poolOnce := List.nodup_nil
      nextMono := by omega
      nextBound := by omega }

/-- The state that Map leaves, with its new segment of n zeros under a fresh ID, meets the invariant. -/
theorem State.ManagerInv.allocate (hs : s.ManagerInv) (ha : s.Allocates id pool next)
    (hc : s.seg.used + n.toNat ≤ s.params.memCapacityWords) :
    ({ s with seg := assocPut id.toNat (Segment.zeros n.toNat) s.seg, pool := pool,
              next := next } : State).ManagerInv where
  memory := Memory.put_wf hs.memory (Segment.zeros_wf n.isLt)
  zeroMapped := Memory.find_put_ne_none.2 (.inr hs.zeroMapped)
  mappedBelow x hx h0 := by
    rcases Memory.find_put_ne_none.1 hx with rfl | hx
    · exact ha.idBelow
    · exact lt_of_lt_of_le (hs.mappedBelow x hx h0) ha.nextMono
  idsAreWords := Memory.put_idsAreWords hs.idsAreWords
  poolRange x hx := by
    obtain ⟨h0, hlt⟩ := hs.poolRange x ((ha.poolIff x).1 hx).1
    exact ⟨h0, lt_of_lt_of_le hlt ha.nextMono⟩
  poolUnmapped x hx hm := by
    obtain ⟨hold, hne⟩ := (ha.poolIff x).1 hx
    exact hs.poolUnmapped x hold ((Memory.find_put_ne_none.1 hm).resolve_left hne)
  poolOnce := ha.poolOnce
  accounted x h0 hx := by
    by_cases e : x = id
    · exact .inl (Memory.find_put_ne_none.2 (.inl e))
    · rcases hs.accounted x h0 ((ha.below x hx).resolve_left e) with hm | hp
      · exact .inl (Memory.find_put_ne_none.2 (.inr hm))
      · exact .inr ((ha.poolIff x).2 ⟨hp, e⟩)
  withinCapacity := by
    have hsum := sum_assocPut_new (v := Segment.zeros n.toNat) Segment.length
      (Classical.not_not.1 ha.unmapped)
    exact le_trans hsum.le hc
  counterPos := le_trans hs.counterPos ha.nextMono
  counterBound := ha.nextBound
  idMaxBound := hs.idMaxBound

theorem State.ManagerInv.mapSegment (hs : s.ManagerInv) (h : s.mapSegment n = .ok (id, u)) :
    u.ManagerInv := by
  obtain ⟨pool, next, hid, hc, rfl⟩ := mapSegment_eq_ok.1 h
  exact hs.allocate (hs.chooseId_allocates hid) hc

theorem State.ManagerInv.unmapSegment (hs : s.ManagerInv) (h : s.unmapSegment id = .ok u) :
    u.ManagerInv := by
  obtain ⟨h0, hm, rfl⟩ := unmapSegment_eq_ok.1 h
  exact {
    memory := Memory.del_wf hs.memory
    zeroMapped := Memory.find_del_ne_none.2 ⟨h0.symm, hs.zeroMapped⟩
    mappedBelow := fun x hx => hs.mappedBelow x (Memory.find_del_ne_none.1 hx).2
    idsAreWords := fun e he => hs.idsAreWords e (mem_assocDel he)
    poolRange := fun x hx => by
      rcases List.mem_cons.1 hx with rfl | hx
      · exact ⟨h0, hs.mappedBelow x hm h0⟩
      · exact hs.poolRange x hx
    poolUnmapped := fun x hx hmx => by
      obtain ⟨hne, hold⟩ := Memory.find_del_ne_none.1 hmx
      exact hs.poolUnmapped x ((List.mem_cons.1 hx).resolve_left hne) hold
    poolOnce := List.nodup_cons.2 ⟨fun hp => hs.poolUnmapped id hp hm, hs.poolOnce⟩
    accounted := fun x hx0 hx => by
      by_cases e : x = id
      · exact .inr (e ▸ List.mem_cons_self)
      · exact (hs.accounted x hx0 hx).imp (fun h => Memory.find_del_ne_none.2 ⟨e, h⟩)
          (List.mem_cons_of_mem _)
    withinCapacity := le_trans (sum_assocDel_le Segment.length) hs.withinCapacity
    counterPos := hs.counterPos
    counterBound := hs.counterBound
    idMaxBound := hs.idMaxBound }

/-! ### The invariant under a step -/

theorem Access.managerInv (h : Access s i u) (hs : s.ManagerInv) : u.ManagerInv := by
  cases h with
  | idle => exact hs
  | store h => exact hs.write h
  | map h => exact hs.mapSegment h
  | unmap h => exact hs.unmapSegment h
  | load h => exact hs.loadProgram h
  | output | input => exact hs.congr rfl rfl rfl rfl

/-- Every access leaves the input port in order (44_io_port.md R161). -/
theorem Access.eosMeansClosed (h : Access s i u)
    (hs : s.eos = true → s.inRest = ⟨[], .closed⟩) : u.eos = true → u.inRest = ⟨[], .closed⟩ := by
  obtain hu | ⟨c, -, rfl⟩ | ⟨c, a, rest, e, -, hin, rfl⟩ := h.memory_or_port
  · rw [hu]; exact hs
  · exact hs
  · exact input_eos hs hin

theorem State.Inv.raise (hs : s.Inv) (f : FaultCause) : (s.raise f).Inv where
  manager := hs.manager.congr rfl rfl rfl rfl
  engine := ⟨by simp, hs.engine.eosMeansClosed⟩

/-- A completing instruction of a Running engine keeps the invariant. -/
theorem State.Inv.complete (hs : s.Inv) (hrun : s.st = .running) (ha : Access s i u)
    (he : Ending s u i t) : t.Inv where
  manager := (ha.managerInv hs.manager).congr he.seg_eq he.pool_eq he.next_eq he.params_eq
  engine := by
    have hst : t.st ≠ .faulted := by
      rcases he.st_cases with h | h <;> simp [h, ha.st_eq, hrun]
    have hfr : ¬ t.fr.isSome = true := by
      rw [he.fr_eq, ha.fr_eq, hs.engine.recordIffFaulted, hrun]
      nofun
    refine ⟨iff_of_false hfr hst, ?_⟩
    rw [he.eos_eq, he.inRest_eq]
    exact ha.eosMeansClosed hs.engine.eosMeansClosed

/-- Settles O40, by the three ways a step ends. -/
theorem stepKeepsTheStateInvariant : Obligations.StepKeepsTheStateInvariant := by
  intro s t hs hstep
  obtain ⟨hrun, ⟨f, rfl⟩ | rfl | ⟨w, i, u, -, -, ha, he⟩⟩ := step_access_ending hstep
  · exact hs.raise f
  · exact hs
  · exact hs.complete hrun ha he

end Sys2Proof.Machine
end

section
/-! PROOFS. When a step is taken, and what it does to pc (10_state.md R23, R24). -/

namespace Sys2Proof.Machine

variable {s t u : State} {i : Instr} {w : Word}

theorem exists_step_of_running (h : s.st = .running) : ∃ t, step s = .next t := by
  unfold step
  rw [h]
  cases hf : s.fetch with
  | error c => exact ⟨_, rfl⟩
  | ok w =>
    obtain ⟨i, hi⟩ := decode_ok w
    obtain ⟨t, ht, -⟩ := exec_effect i s
    exact ⟨t, by simp only [hi, ht]⟩

/-- Settles O27: fetch, decode and exec each answer in a Running engine, and step asks for Running. -/
theorem stepsAreTakenExactlyWhileRunning : Obligations.StepsAreTakenExactlyWhileRunning :=
  ⟨fun _ => ⟨fun ⟨_, h⟩ => (step_cases h).1, exists_step_of_running⟩,
    fun s h => by simp [step, h], fun s h => by simp [step, h]⟩

/-- The port leaves an IN waiting only on an open stream with no byte (44_io_port.md R161). -/
theorem input_eq_none (h : s.input = none) : s.eos = false ∧ s.inRest = ⟨[], .awaiting⟩ := by
  by_cases he : s.eos = true
  · simp [State.input, he] at h
  · rcases hr : s.inRest with ⟨_ | ⟨b, bs⟩, _ | _ | pos⟩ <;> simp_all [State.input]

/-- Settles O30: the step of a decoded word ends in a fault, a wait, or its instruction's ending. -/
theorem pcMovesOnUnlessLoadpWaitOrFault : Obligations.PcMovesOnUnlessLoadpWaitOrFault := by
  intro s t w i hstep hread hdec
  have hexec : exec i s = .next t := step_eq_exec (step_cases hstep).1 hread hdec ▸ hstep
  obtain ⟨f, rfl⟩ | ⟨c, hc, hin, rfl⟩ | ⟨u, ha, hu⟩ := effect_cases (effect_of_exec hexec)
  · exact .inl ⟨rfl, rfl⟩
  · exact .inr (.inr (.inl ⟨c, hc, rfl, input_eq_none hin⟩))
  · rcases hu.pc_cases with hjump | hmove
    · exact .inr (.inl hjump)
    · exact .inr (.inr (.inr (ha.pc_eq ▸ hmove)))

/-- Settles O31: pc lies below the length of segment 0, which the canonical form holds below 2^32. -/
theorem pcIncrementNeverWraps : Obligations.PcIncrementNeverWraps := by
  intro s w hs hread
  obtain ⟨g, hg, hpc, -⟩ := Memory.read_eq_ok.1 hread
  obtain ⟨-, -, hlen⟩ := Memory.find_wf hs.manager.memory hg
  rw [BitVec.toNat_add]
  exact Nat.mod_eq_of_lt (by simp; omega)

end Sys2Proof.Machine
end

section
/-! PROOFS. The registers an instruction writes and reads (10_state.md R21). That an unread register has
no influence is a comparison of two runs: `State.AgreesBut` relates their states, and each piece that a
meaning is made of keeps it. -/

namespace Sys2Proof.Machine

variable {s t u : State} {i : Instr} {r : Reg} {v : Word} {α : Type} {f f' : α → State}
  {e : Except FaultCause α}

/-- Settles O32: only the ending writes registers, and only those the instruction lists. -/
theorem unlistedRegistersAreUnchanged : Obligations.UnlistedRegistersAreUnchanged := by
  intro i s t r hexec hr
  obtain ⟨f, rfl⟩ | ⟨-, -, -, rfl⟩ | ⟨u, ha, hu⟩ := effect_cases (effect_of_exec hexec)
  · rfl
  · rfl
  · rw [hu.reg_eq hr, ha.reg_eq]

/-- t' is t but for what register r may hold. -/
def State.AgreesBut (r : Reg) (t t' : State) : Prop :=
  t' = { t with regs := t'.regs } ∧ ∀ q, q ≠ r → t'.reg q = t.reg q

/-- Two outcomes whose next states agree but for register r. -/
def OutcomesAgreeBut (r : Reg) (x y : Host.Outcome State Fault Refusal) : Prop :=
  ∀ t t', x = .next t → y = .next t' → t.AgreesBut r t'

theorem agreesBut_setReg (t : State) (r : Reg) (v : Word) : t.AgreesBut r (t.setReg r v) :=
  ⟨rfl, fun _ hq => reg_setReg_ne t r v hq⟩

/-- The same result in the same destination keeps the agreement, whether or not that is r. -/
theorem agreesBut_finish (t : State) (r a : Reg) (v x : Word) :
    (t.finish a x).AgreesBut r ((t.setReg r v).finish a x) := by
  refine ⟨rfl, fun q hq => ?_⟩
  rw [reg_finish, reg_finish, reg_setReg_ne t r v hq]

theorem outcomesAgreeBut_next (h : t.AgreesBut r u) : OutcomesAgreeBut r (.next t) (.next u) := by
  intro _ _ ht hu
  cases ht; cases hu
  exact h

/-- A fault reads no register: its record is the same (43_engine_control.md R142). -/
theorem outcomesAgreeBut_takeFault (s : State) (r : Reg) (v : Word) (c : FaultCause) :
    OutcomesAgreeBut r (s.takeFault c) ((s.setReg r v).takeFault c) :=
  outcomesAgreeBut_next (agreesBut_setReg (s.raise c) r v)

/-- The end of a step keeps the agreement, where both runs commit writes of one result or its fault. -/
theorem outcomesAgreeBut_commit (h : ∀ y, (f y).AgreesBut r (f' y)) :
    OutcomesAgreeBut r (s.commit (e.map f)) ((s.setReg r v).commit (e.map f')) := by
  cases e with
  | ok y => exact outcomesAgreeBut_next (h y)
  | error c => exact outcomesAgreeBut_takeFault s r v c

/-! The primitives that answer a state answer the same of any registers, and carry them along. -/

theorem mapSegment_setReg (s : State) (r : Reg) (v n : Word) :
    (s.setReg r v).mapSegment n = (s.mapSegment n).map fun p => (p.1, p.2.setReg r v) := by
  have hid : (s.setReg r v).chooseId = s.chooseId := rfl
  unfold State.mapSegment
  rw [hid]
  cases s.chooseId with
  | error c => rfl
  | ok p =>
    by_cases hc : s.seg.used + n.toNat > s.params.memCapacityWords <;>
      simp [State.setReg, Except.map, hc]

theorem unmapSegment_setReg (s : State) (r : Reg) (v id : Word) :
    (s.setReg r v).unmapSegment id = (s.unmapSegment id).map (·.setReg r v) := by
  unfold State.unmapSegment
  rw [setReg_seg]
  by_cases hi : id = 0#32
  · rw [if_pos hi, if_pos hi]; rfl
  · rw [if_neg hi, if_neg hi]
    cases s.seg.find id <;> rfl

theorem loadProgram_setReg (s : State) (r : Reg) (v id : Word) :
    (s.setReg r v).loadProgram id = (s.loadProgram id).map (·.setReg r v) := by
  unfold State.loadProgram
  rw [setReg_seg, setReg_params]
  cases s.seg.dup s.params.memCapacityWords id <;> rfl

theorem except_map_map {β γ : Type} (e : Except FaultCause α) (g : α → β) (k : β → γ) :
    (e.map g).map k = e.map fun y => k (g y) := by
  cases e <;> rfl

/-- The two runs of an instruction, with a register it does not read at its value and at v, agree but
for that register. -/
theorem exec_setReg_of_not_read (i : Instr) (s : State) (v : Word) (hr : r ∉ reads i) :
    OutcomesAgreeBut r (exec i s) (exec i (s.setReg r v)) := by
  have hreg : ∀ q ∈ reads i, (s.setReg r v).reg q = s.reg q :=
    fun q hq => reg_setReg_ne s r v fun e => hr (e ▸ hq)
  cases i with
  | cmov a b c =>
    simp only [exec, execCmov, hreg b (by simp [reads]), hreg c (by simp [reads])]
    refine outcomesAgreeBut_next ?_
    by_cases hc : condHolds (s.reg c)
    · rw [if_pos hc, if_pos hc]; exact agreesBut_finish s r a v _
    · rw [if_neg hc, if_neg hc]; exact agreesBut_setReg s.advance r v
  | sload a b c =>
    simp only [exec, execSload, hreg b (by simp [reads]), hreg c (by simp [reads])]
    exact outcomesAgreeBut_commit fun y => agreesBut_finish s r a v y
  | sstore a b c =>
    simp only [exec, execSstore, hreg a (by simp [reads]), hreg b (by simp [reads]),
      hreg c (by simp [reads])]
    exact outcomesAgreeBut_commit fun m => agreesBut_setReg { s with seg := m }.advance r v
  | add a b c | mul a b c | nand a b c =>
    simp only [exec, execAdd, execMul, execNand, hreg b (by simp [reads]), hreg c (by simp [reads])]
    exact outcomesAgreeBut_next (agreesBut_finish s r a v _)
  | div a b c =>
    simp only [exec, execDiv, hreg b (by simp [reads]), hreg c (by simp [reads])]
    by_cases hc : isZero (s.reg c)
    · rw [if_pos hc, if_pos hc]; exact outcomesAgreeBut_takeFault s r v _
    · rw [if_neg hc, if_neg hc]; exact outcomesAgreeBut_next (agreesBut_finish s r a v _)
  | halt => exact outcomesAgreeBut_next (agreesBut_setReg s.advance.haltEngine r v)
  | map b c =>
    simp only [exec, execMap, hreg c (by simp [reads]), mapSegment_setReg, except_map_map]
    exact outcomesAgreeBut_commit fun p => agreesBut_finish p.2 r b v p.1
  | unmap c =>
    simp only [exec, execUnmap, hreg c (by simp [reads]), unmapSegment_setReg, except_map_map]
    exact outcomesAgreeBut_commit fun u => agreesBut_setReg u.advance r v
  | out c =>
    simp only [exec, execOut, hreg c (by simp [reads])]
    by_cases hc : aboveByte (s.reg c)
    · rw [if_pos hc, if_pos hc]; exact outcomesAgreeBut_takeFault s r v _
    · rw [if_neg hc, if_neg hc]
      exact outcomesAgreeBut_next (agreesBut_setReg (s.output _).advance r v)
  | inp c =>
    have hin : (s.setReg r v).input = s.input := rfl
    simp only [exec, execInp, hin]
    cases s.input with
    | none => exact outcomesAgreeBut_next (agreesBut_setReg s r v)
    | some p =>
      exact outcomesAgreeBut_next
        (agreesBut_finish { s with inRest := p.2.1, eos := p.2.2 } r c v _)
  | loadp b c =>
    simp only [exec, execLoadp, hreg b (by simp [reads]), hreg c (by simp [reads]),
      loadProgram_setReg, except_map_map]
    exact outcomesAgreeBut_commit fun u => agreesBut_setReg (u.setPc (s.reg c)) r v
  | lv a imm => exact outcomesAgreeBut_next (agreesBut_finish s r a v _)
  | illegal14 | illegal15 => exact outcomesAgreeBut_takeFault s r v _

/-- Settles O33, by the two runs' agreement on each instruction. -/
theorem unreadRegistersHaveNoInfluence : Obligations.UnreadRegistersHaveNoInfluence := by
  intro i s t t' r v hr ht ht'
  exact exec_setReg_of_not_read i s v hr t t' ht ht'

end Sys2Proof.Machine
end

section
/-! PROOFS. What a step leaves of the output, the ID counter, the parameters and the lengths of the
segments (10_state.md R26, R28, R30, R34). -/

namespace Sys2Proof.Machine

variable {s t u : State} {i : Instr} {m m' : Memory} {id id' o v : Word} {g g' : Segment}

/-! ### Output (R30) -/

theorem Access.out_cases (h : Access s i u) :
    u.out = s.out ∨ ∃ c b, i = .out c ∧ u.out = s.out ++ [b] := by
  obtain hu | ⟨c, hc, rfl⟩ | ⟨c, a, rest, e, -, -, rfl⟩ := h.memory_or_port
  · exact .inl (by rw [hu])
  · exact .inr ⟨c, _, hc, rfl⟩
  · exact .inl rfl

/-- Settles O34: only OUT's access touches the output log. -/
theorem outputOnlyGrowsByOut : Obligations.OutputOnlyGrowsByOut := by
  intro s t hstep
  obtain ⟨-, ⟨f, rfl⟩ | rfl | ⟨w, i, u, hread, hdec, ha, he⟩⟩ := step_access_ending hstep
  · exact .inl rfl
  · exact .inl rfl
  · rw [he.out_eq]
    refine ha.out_cases.imp_right ?_
    rintro ⟨c, b, rfl, hout⟩
    exact ⟨w, b, hread, opcodeBits_of_decode hdec, hout⟩

/-! ### The counter and the parameters (R28, R34) -/

/-- Under the invariant no access lowers the counter. -/
theorem Access.next_le (h : Access s i u) (hs : s.ManagerInv) : s.next.toNat ≤ u.next.toNat := by
  cases h with
  | idle | store | output | input => exact le_rfl
  | map h =>
    obtain ⟨_, _, hid, -, rfl⟩ := mapSegment_eq_ok.1 h
    exact (hs.chooseId_allocates hid).nextMono
  | unmap h => obtain ⟨-, -, rfl⟩ := unmapSegment_eq_ok.1 h; exact le_rfl
  | load h => obtain ⟨_, -, rfl⟩ := loadProgram_eq_ok.1 h; exact le_rfl

/-- No step changes the run's parameters. -/
theorem params_eq_of_step (h : step s = .next t) : t.params = s.params := by
  obtain ⟨-, ⟨f, rfl⟩ | rfl | ⟨w, i, u, -, -, ha, he⟩⟩ := step_access_ending h
  · rfl
  · rfl
  · rw [he.params_eq, ha.params_eq]

/-- Settles O35: MAP alone moves the counter, and mints without a wrap. -/
theorem counterNeverFallsAndParametersStay : Obligations.CounterNeverFallsAndParametersStay := by
  intro s t hs hstep
  refine ⟨?_, params_eq_of_step hstep⟩
  obtain ⟨-, ⟨f, rfl⟩ | rfl | ⟨w, i, u, -, -, ha, he⟩⟩ := step_access_ending hstep
  · exact le_rfl
  · exact le_rfl
  · rw [he.next_eq]
    exact ha.next_le hs.manager

/-! ### Lengths of segments (R26) -/

/-- A write keeps the length of every segment. -/
theorem Memory.write_length (h : m.write id o v = .ok m') (hg : m.find id' = some g)
    (hg' : m'.find id' = some g') : g'.length = g.length := by
  by_cases hi : id' = id
  · subst hi
    obtain ⟨k, hk, -, rfl⟩ := Memory.write_eq_ok.1 h
    rw [Memory.find_put_self] at hg'
    cases hg'
    cases hk.symm.trans hg
    rfl
  · rw [Memory.write_find_ne h hi, hg] at hg'
    cases hg'
    rfl

/-- Under the invariant an access keeps the length of every segment that stays mapped, but for segment
0 under LOADP. -/
theorem Access.length_eq (h : Access s i u) (hs : s.ManagerInv) (hg : s.seg.find id = some g)
    (hg' : u.seg.find id = some g') (hload : id = 0#32 → i.opcode ≠ 12) : g'.length = g.length := by
  have same (e : u.seg.find id = s.seg.find id) : g'.length = g.length := by
    rw [e, hg] at hg'
    cases hg'
    rfl
  cases h with
  | idle | output | input => exact same rfl
  | store h => exact Memory.write_length h hg hg'
  | map h =>
    obtain ⟨_, _, hid, -, rfl⟩ := mapSegment_eq_ok.1 h
    refine same (Memory.find_put_ne fun e => (hs.chooseId_allocates hid).unmapped ?_)
    simp [State.mapped, ← e, hg]
  | unmap h =>
    obtain ⟨-, -, rfl⟩ := unmapSegment_eq_ok.1 h
    refine same (Memory.find_del_ne ?_)
    exact (Memory.find_del_ne_none.1 (by rw [hg']; nofun)).1
  | load h =>
    obtain ⟨_, hd, rfl⟩ := loadProgram_eq_ok.1 h
    exact same (Memory.dup_find_ne hd fun e => hload e rfl)

/-- Settles O36: MAP's ID was not mapped, and only LOADP's Dup replaces a segment. -/
theorem segmentsAreNeverResized : Obligations.SegmentsAreNeverResized := by
  intro s t id g g' hs hstep hg hg' hload
  obtain ⟨-, ⟨f, rfl⟩ | rfl | ⟨w, i, u, hread, hdec, ha, he⟩⟩ := step_access_ending hstep
  · cases hg.symm.trans hg'; rfl
  · cases hg.symm.trans hg'; rfl
  · rw [he.seg_eq] at hg'
    refine ha.length_eq hs.manager hg hg' fun h0 => ?_
    rw [← opcodeBits_of_decode hdec]
    exact hload h0 w hread

end Sys2Proof.Machine
end

section
/-! PROOFS. Runs from a launch (10_state.md R29, 70_reset_and_hazards.md R211, R212): a launched state
meets the invariant, and every state a run reaches does. -/

namespace Sys2Proof.Machine

variable {s t : State} {params : Params} {input : InputRest}

/-! ### The loaded segment -/

theorem Segment.entries_bounds {o : Nat} {ws : List Word} {e : Nat × Word}
    (h : e ∈ Segment.entries o ws) : o ≤ e.1 ∧ e.1 < o + ws.length ∧ e.2 ≠ 0#32 := by
  induction ws generalizing o with
  | nil => exact absurd h List.not_mem_nil
  | cons w ws ih =>
    have later (h : e ∈ Segment.entries (o + 1) ws) :
        o ≤ e.1 ∧ e.1 < o + (w :: ws).length ∧ e.2 ≠ 0#32 := by
      obtain ⟨hlo, hhi, hne⟩ := ih h
      exact ⟨by omega, by rw [List.length_cons]; omega, hne⟩
    rw [Segment.entries] at h
    split at h
    · exact later h
    · next hw =>
      rcases List.mem_cons.1 h with rfl | h
      · exact ⟨le_rfl, by simp, hw⟩
      · exact later h

theorem Segment.keysRise_entries (o : Nat) (ws : List Word) : keysRise (Segment.entries o ws) := by
  induction ws generalizing o with
  | nil => exact keysRise_nil
  | cons w ws ih =>
    rw [Segment.entries]
    split
    · exact ih (o + 1)
    · exact keysRise_cons.2 ⟨fun d hd => (Segment.entries_bounds hd).1, ih (o + 1)⟩

theorem Segment.ofWords_wf {ws : List Word} (h : ws.length < 2 ^ 32) : (Segment.ofWords ws).wf := by
  refine ⟨Segment.keysRise_entries 0 ws, fun e he => ?_, h⟩
  obtain ⟨-, hlt, hne⟩ := Segment.entries_bounds he
  exact ⟨by simpa [Segment.ofWords] using hlt, hne⟩

/-! ### Launch -/

theorem length_wordsOfImage : ∀ bs : List Byte, (wordsOfImage bs).length = bs.length / 4
  | _ :: _ :: _ :: _ :: rest => by
    rw [wordsOfImage, List.length_cons, length_wordsOfImage rest]
    simp only [List.length_cons]
    omega
  | [] | [_] | [_, _] | [_, _, _] => by simp [wordsOfImage]

/-- All that an accepted launch can be (70_reset_and_hazards.md R212). -/
theorem launch_eq_ok {img : ImageSource} :
    launch img params input = .ok s ↔
      ∃ bs, img = .bytes bs ∧ bs.length % 4 = 0 ∧ bs.length / 4 ≤ 2 ^ 32 - 1 ∧
        bs.length / 4 ≤ params.memCapacityWords ∧
        s = State.launched (wordsOfImage bs) params input := by
  cases img with
  | unreadable => simp [launch]
  | bytes bs =>
    simp only [launch, ImageSource.bytes.injEq, exists_eq_left']
    split_ifs with h1 h2 h3
    · simp [h1]
    · simp only [false_iff]; omega
    · simp only [false_iff]; omega
    · rw [Except.ok.injEq, eq_comm]
      exact ⟨fun h => ⟨by omega, by omega, by omega, h⟩, fun h => h.2.2.2⟩

theorem launched_mapped {P : List Word} {id : Word} :
    (State.launched P params input).mapped id ↔ id = 0#32 := by
  by_cases h : id = 0#32
  · subst h; simp [State.mapped, State.launched, Memory.find, assocFind]
  · have h0 : ¬ 0 = id.toNat := fun e => h (BitVec.eq_of_toNat_eq e.symm)
    simp [State.mapped, State.launched, Memory.find, assocFind, h, h0]

/-- A program that fits a Word and the capacity starts in a state that meets the invariant. -/
theorem launched_inv {P : List Word} (hlen : P.length < 2 ^ 32)
    (hcap : P.length ≤ params.memCapacityWords) (hid : params.idMax.toNat < 2 ^ 32 - 1) :
    (State.launched P params input).Inv where
  manager := {
    memory := ⟨List.pairwise_singleton _ _, fun e he => by
      rw [List.mem_singleton.1 he]
      exact Segment.ofWords_wf hlen⟩
    zeroMapped := launched_mapped.2 rfl
    mappedBelow := fun id h h0 => absurd (launched_mapped.1 h) h0
    idsAreWords := fun e he => by rw [List.mem_singleton.1 he]; exact Nat.two_pow_pos 32
    poolRange := fun _ h => absurd h List.not_mem_nil
    poolUnmapped := fun _ h => absurd h List.not_mem_nil
    poolOnce := List.nodup_nil
    accounted := fun id h0 h => absurd (BitVec.eq_of_toNat_eq (Nat.lt_one_iff.1 h)) h0
    withinCapacity := hcap
    counterPos := le_rfl
    counterBound := Nat.le_add_left _ _
    idMaxBound := hid }
  engine := ⟨by simp [State.launched], fun h => absurd h Bool.false_ne_true⟩

theorem inv_of_launch {img : ImageSource} (h : launch img params input = .ok s)
    (hid : params.idMax.toNat < 2 ^ 32 - 1) : s.Inv := by
  obtain ⟨bs, -, -, hlen, hcap, rfl⟩ := launch_eq_ok.1 h
  refine launched_inv ?_ ?_ hid
  · rw [length_wordsOfImage]; omega
  · rw [length_wordsOfImage]; exact hcap

theorem params_of_launch {img : ImageSource} (h : launch img params input = .ok s) :
    s.params = params := by
  obtain ⟨bs, -, -, -, -, rfl⟩ := launch_eq_ok.1 h
  rfl

/-! ### Runs -/

theorem Reaches.inv (h : Reaches s t) (hs : s.Inv) : t.Inv := by
  induction h with
  | refl => exact hs
  | tail _ hstep ih => exact stepKeepsTheStateInvariant _ _ ih hstep

theorem Reaches.params_eq (h : Reaches s t) : t.params = s.params := by
  induction h with
  | refl => rfl
  | tail _ hstep ih => rw [params_eq_of_step hstep, ih]

/-- Under the manager's invariants an ID in 1 .. next-1 is exactly one of mapped and in the pool. -/
theorem State.ManagerInv.mapped_iff_not_mem_pool {id : Word} (hs : s.ManagerInv) (h0 : id ≠ 0#32)
    (hlt : id.toNat < s.next.toNat) : s.mapped id ↔ id ∉ s.pool :=
  ⟨fun hm hp => hs.poolUnmapped id hp hm, fun hp => (hs.accounted id h0 hlt).resolve_right hp⟩

theorem one_le_toNat_iff {id : Word} : 1 ≤ id.toNat ↔ id ≠ 0#32 := by
  rw [ne_eq, ← BitVec.toNat_inj]
  exact Nat.one_le_iff_ne_zero

/-- Settles O42, by the invariant along the run. -/
theorem managerRulesHoldInEveryReachableState :
    Obligations.ManagerRulesHoldInEveryReachableState := by
  intro img params input s t hl hid hr
  have hm := (hr.inv (inv_of_launch hl hid)).manager
  have hparams : t.params = params := hr.params_eq.trans (params_of_launch hl)
  refine ⟨hm.zeroMapped, hm.mappedBelow, fun id hp => ?_, hm.poolOnce, fun id h1 hlt => ?_, ?_⟩
  · obtain ⟨h0, hlt⟩ := hm.poolRange id hp
    exact ⟨one_le_toNat_iff.2 h0, hlt, hm.poolUnmapped id hp⟩
  · exact hm.mapped_iff_not_mem_pool (one_le_toNat_iff.1 h1) hlt
  · exact hparams ▸ hm.withinCapacity

end Sys2Proof.Machine
end

section
/-! PROOFS. Memory as the engine sees it (20_memory.md): the fetch that fails (R43), the ID a MAP returns
(R45), the opcodes that leave memory (R52), and the fetch of a word just stored (R58). -/

namespace Sys2Proof.Machine

variable {s t u : State} {i : Instr} {c : FaultCause} {m : Memory}

/-! ### Fetch faults (R43) -/

/-- The rule for every fault: taking it gives the faulted state of the spec, whose record holds the word
that a read of segment 0 at pc gives, if it gives one (43_engine_control.md R142). -/
theorem faultedWith_raise (s : State) (c : FaultCause) : s.FaultedWith (s.raise c) c where
  faulted := rfl
  record := by
    refine ⟨s.fetch.toOption, rfl, fun w => ?_⟩
    rw [← fetch_eq_ok_iff_read]
    cases s.fetch <;> simp [Except.toOption]
  kept := rfl

/-- The step of a Running engine whose fetch fails is the fetch's fault. -/
theorem step_eq_raise (hrun : s.st = .running) (hf : s.fetch = .error c) :
    step s = .next (s.raise c) := by
  unfold step
  rw [hrun, hf]
  rfl

theorem programLength_of_find {g : Segment} (h : m.find 0#32 = some g) :
    m.programLength = g.length := by
  unfold Memory.programLength
  rw [h]

/-- Settles O26: the fetch fails at the length of segment 0, and its fault is the step. -/
theorem fetchOutsideTheProgramFaults : Obligations.FetchOutsideTheProgramFaults := by
  intro s g hrun hg hpc
  have hlen := programLength_of_find hg
  have hf : s.fetch = .error (.pcOutOfBounds s.pc g.length) :=
    fetch_eq_error.2 ⟨hlen ▸ hpc, by rw [hlen]⟩
  exact ⟨_, step_eq_raise hrun hf, faultedWith_raise s _⟩

/-! ### The ID a MAP returns (R45) -/

/-- Settles O16: a MAP that does not fault made the primitive Map, whose ID is fresh under the
invariant. -/
theorem mapReturnsAFreshId : Obligations.MapReturnsAFreshId := by
  intro b c s t hs _ hexec hok
  cases effect_of_exec hexec with
  | mapFault => exact absurd rfl hok
  | map h =>
    obtain ⟨_, _, hid, -, rfl⟩ := mapSegment_eq_ok.1 h
    have hfresh := hs.manager.chooseId_allocates hid
    rw [reg_finish_self]
    exact ⟨hfresh.nonzero, hfresh.unmapped, Memory.find_put_self⟩

/-! ### The opcodes that leave memory (R40, R52) -/

/-- Only the accesses of SSTORE, MAP, UNMAP and LOADP are to memory. -/
theorem Access.seg_eq (h : Access s i u) (hop : i.opcode ∉ [2, 8, 9, 12]) : u.seg = s.seg := by
  cases h with
  | idle | output | input => rfl
  | store | map | unmap | load => simp [Instr.opcode] at hop

/-- Settles O37: a fault and a wait keep memory, and so do the access and the ending of the instruction
fetched. -/
theorem otherInstructionsLeaveMemory : Obligations.OtherInstructionsLeaveMemory := by
  intro s t w hstep hread hop id o
  obtain ⟨-, ⟨f, rfl⟩ | rfl | ⟨w', i, u, hread', hdec, ha, he⟩⟩ := step_access_ending hstep
  · rfl
  · rfl
  · cases hread.symm.trans hread'
    rw [opcodeBits_of_decode hdec] at hop
    rw [he.seg_eq, ha.seg_eq hop]

/-! ### The fetch of a word just stored (R58) -/

/-- An SSTORE whose write is in bounds completes, with the memory written and pc at the next index. -/
theorem exec_sstore_of_write {a b c : Reg}
    (h : s.seg.write (s.reg a) (s.reg b) (s.reg c) = .ok m) :
    exec (.sstore a b c) s = .next { s with seg := m }.advance := by
  simp only [exec, execSstore, h, Except.map, commit_ok]

/-- Settles O38: the address stored to is the one the next fetch reads, so the fetch reads the stored
word. -/
theorem storeIntoTheProgramIsFetchedNext : Obligations.StoreIntoTheProgramIsFetchedNext := by
  intro a b c s g i hrun ha hb hg hlt hdec
  obtain ⟨m, hw⟩ : ∃ m, s.seg.write (s.reg a) (s.reg b) (s.reg c) = .ok m :=
    ⟨_, Memory.write_eq_ok.2 ⟨g, ha ▸ hg, hlt, rfl⟩⟩
  have hread : m.read 0#32 (s.pc + 1#32) = .ok (s.reg c) := ha ▸ hb ▸ Memory.read_write_self hw
  exact ⟨_, exec_sstore_of_write hw, step_eq_exec hrun hread hdec⟩

end Sys2Proof.Machine
end

section
/-! PROOFS. The encoding (30_encoding.md): each opcode's row as bit slices of the word (R62, R63, R65),
and from the rows the round trip (R70), the decoder on every word (R69), and the ignored bits (R65). -/

namespace Sys2Proof.Machine

variable {op n lsb : Nat} {f : Reg → Reg → Reg → Instr} {g : Reg → Word → Instr} {i : Instr}
  {w w' : Word}

/-! ### The two forms -/

theorem sliceReg_eq (w : Word) (lsb : Nat) : sliceReg w lsb = Fin.ofNat 8 (w.toNat / 2 ^ lsb) := by
  apply Fin.ext
  simp [sliceReg, Nat.shiftRight_eq_div_pow]

/-- The immediate's value is that of its 25 bits (R67). -/
theorem toNat_immSlice (w : Word) :
    ((w.extractLsb' 0 25).setWidth 32 : Word).toNat = w.toNat % 2 ^ 25 := by
  rw [BitVec.toNat_setWidth_of_le (by decide), BitVec.extractLsb'_toNat, Nat.shiftRight_zero]

/-- An opcode whose row is the three-register form has its operands in the form's slices. -/
theorem encodedAsABC_of_row (hop : op < 16) (hrow : ∀ w, decodeOp w ⟨op, hop⟩ = withABC w f) :
    EncodedAsABC op f := by
  intro w hw
  rw [decode_of_opcode hop (toNat_opcodeBits w ▸ hw), hrow, withABC_ok]
  simp only [sliceReg_eq, pow_zero, Nat.div_one]

/-- An opcode whose row is the immediate form has its operands in the form's slices. -/
theorem encodedAsImm_of_row (hop : op < 16) (hrow : ∀ w, decodeOp w ⟨op, hop⟩ = withImm w g) :
    EncodedAsImm op g := by
  intro w hw
  rw [decode_of_opcode hop (toNat_opcodeBits w ▸ hw), hrow, withImm_ok, sliceReg_eq]
  congr 2
  apply BitVec.eq_of_toNat_eq
  rw [toNat_immSlice, BitVec.toNat_ofNat, Nat.mod_eq_of_lt (by omega)]

/-- An illegal opcode's row reads no field, so it is a three-register row with no operand. -/
theorem encodedAsABC_of_ok (hop : op < 16) (hrow : ∀ w, decodeOp w ⟨op, hop⟩ = .ok i) :
    EncodedAsABC op fun _ _ _ => i :=
  encodedAsABC_of_row hop fun w => by rw [hrow, withABC_ok]

/-! ### The rows (R64, R69) -/

theorem encodedAs_cmov : EncodedAsABC 0 .cmov := encodedAsABC_of_row (by decide) fun _ => rfl
theorem encodedAs_sload : EncodedAsABC 1 .sload := encodedAsABC_of_row (by decide) fun _ => rfl
theorem encodedAs_sstore : EncodedAsABC 2 .sstore := encodedAsABC_of_row (by decide) fun _ => rfl
theorem encodedAs_add : EncodedAsABC 3 .add := encodedAsABC_of_row (by decide) fun _ => rfl
theorem encodedAs_mul : EncodedAsABC 4 .mul := encodedAsABC_of_row (by decide) fun _ => rfl
theorem encodedAs_div : EncodedAsABC 5 .div := encodedAsABC_of_row (by decide) fun _ => rfl
theorem encodedAs_nand : EncodedAsABC 6 .nand := encodedAsABC_of_row (by decide) fun _ => rfl
theorem encodedAs_halt : EncodedAsABC 7 fun _ _ _ => .halt :=
  encodedAsABC_of_row (by decide) fun _ => rfl
theorem encodedAs_map : EncodedAsABC 8 fun _ b c => .map b c :=
  encodedAsABC_of_row (by decide) fun _ => rfl
theorem encodedAs_unmap : EncodedAsABC 9 fun _ _ c => .unmap c :=
  encodedAsABC_of_row (by decide) fun _ => rfl
theorem encodedAs_out : EncodedAsABC 10 fun _ _ c => .out c :=
  encodedAsABC_of_row (by decide) fun _ => rfl
theorem encodedAs_inp : EncodedAsABC 11 fun _ _ c => .inp c :=
  encodedAsABC_of_row (by decide) fun _ => rfl
theorem encodedAs_loadp : EncodedAsABC 12 fun _ b c => .loadp b c :=
  encodedAsABC_of_row (by decide) fun _ => rfl
theorem encodedAs_lv : EncodedAsImm 13 .lv := encodedAsImm_of_row (by decide) fun _ => rfl
theorem encodedAs_illegal14 : EncodedAsABC 14 fun _ _ _ => .illegal14 :=
  encodedAsABC_of_ok (by decide) fun _ => rfl
theorem encodedAs_illegal15 : EncodedAsABC 15 fun _ _ _ => .illegal15 :=
  encodedAsABC_of_ok (by decide) fun _ => rfl

/-! ### The round trip (R70) -/

/-- The slices of a three-register word are its operands: no field overlaps another. -/
theorem sliceReg_encodeABC (op : Nat) (a b c : Reg) :
    sliceReg (encodeABC op a b c) 6 = a ∧ sliceReg (encodeABC op a b c) 3 = b ∧
      sliceReg (encodeABC op a b c) 0 = c := by
  simp only [sliceReg_eq, Fin.ext_iff, Fin.val_ofNat, encodeABC, BitVec.toNat_ofNat]
  omega

/-- A word of the three-register form decodes to its row on its operands. -/
theorem EncodedAsABC.decode_encodeABC (h : EncodedAsABC op f) (hop : op < 16) (a b c : Reg) :
    decode (encodeABC op a b c) = .ok (f a b c) := by
  obtain ⟨ha, hb, hc⟩ := sliceReg_encodeABC op a b c
  rw [h _ (by rw [toNat_opcodeBits, Laws.EncodedOpcode.encodeABC_opcode hop]), ha, hb, hc]

theorem toNat_encodeImm (hop : op < 16) (a : Reg) {imm : Nat} (himm : imm < 2 ^ 25) :
    (encodeImm op a imm).toNat = op * 2 ^ 28 + a * 2 ^ 25 + imm := by
  rw [encodeImm, BitVec.toNat_ofNat]
  exact Nat.mod_eq_of_lt (by omega)

/-- A word of the immediate form decodes to its row on its operands, where the immediate fits. -/
theorem EncodedAsImm.decode_encodeImm (h : EncodedAsImm op g) (hop : op < 16) (a : Reg) {imm : Word}
    (himm : imm.toNat < 2 ^ 25) : decode (encodeImm op a imm.toNat) = .ok (g a imm) := by
  have hnat := toNat_encodeImm hop a himm
  have hop' : ((encodeImm op a imm.toNat).extractLsb' 28 4).toNat = op := by
    rw [toNat_opcodeBits, hnat]; omega
  have ha : sliceReg (encodeImm op a imm.toNat) 25 = a := by
    rw [sliceReg_eq, hnat, Fin.ext_iff, Fin.val_ofNat]; omega
  have hi : ((encodeImm op a imm.toNat).extractLsb' 0 25).setWidth 32 = imm := by
    apply BitVec.eq_of_toNat_eq
    rw [toNat_immSlice, hnat]; omega
  rw [h _ hop', ha, hi]

/-- Settles O1: each instruction's word is its row's form of its operands. -/
theorem decodeOfEncodeIsTheInstruction : Obligations.DecodeOfEncodeIsTheInstruction := by
  intro i hwf
  cases i with
  | cmov a b c => exact encodedAs_cmov.decode_encodeABC (by decide) a b c
  | sload a b c => exact encodedAs_sload.decode_encodeABC (by decide) a b c
  | sstore a b c => exact encodedAs_sstore.decode_encodeABC (by decide) a b c
  | add a b c => exact encodedAs_add.decode_encodeABC (by decide) a b c
  | mul a b c => exact encodedAs_mul.decode_encodeABC (by decide) a b c
  | div a b c => exact encodedAs_div.decode_encodeABC (by decide) a b c
  | nand a b c => exact encodedAs_nand.decode_encodeABC (by decide) a b c
  | halt => exact encodedAs_halt.decode_encodeABC (by decide) 0 0 0
  | map b c => exact encodedAs_map.decode_encodeABC (by decide) 0 b c
  | unmap c => exact encodedAs_unmap.decode_encodeABC (by decide) 0 0 c
  | out c => exact encodedAs_out.decode_encodeABC (by decide) 0 0 c
  | inp c => exact encodedAs_inp.decode_encodeABC (by decide) 0 0 c
  | loadp b c => exact encodedAs_loadp.decode_encodeABC (by decide) 0 b c
  | lv a imm => exact encodedAs_lv.decode_encodeImm (by decide) a (of_decide_eq_true hwf)
  | illegal14 => exact encodedAs_illegal14.decode_encodeABC (by decide) 0 0 0
  | illegal15 => exact encodedAs_illegal15.decode_encodeABC (by decide) 0 0 0

/-! ### Every word (R69) -/

/-- The decoder's instruction fits its encoding: LV's immediate is the 25-bit slice. -/
theorem wellFormed_of_decode (h : decode w = .ok i) : i.WellFormed := by
  cases i with
  | lv a imm =>
    have hd := encodedAs_lv w (opcodeBits_of_decode h)
    rw [h, Except.ok.injEq, Instr.lv.injEq] at hd
    obtain ⟨-, rfl⟩ := hd
    exact decide_eq_true (toNat_immSlice w ▸ Nat.mod_lt _ (by decide))
  | _ => rfl

/-- Opcodes 14 and 15 fault, and the cause names the opcode (43_engine_control.md R150). -/
theorem exec_of_illegal (h : 14 ≤ i.opcode) (s : State) :
    exec i s = .next (s.raise (.unrecognizedOpcode i.opcode)) := by
  cases i with
  | illegal14 | illegal15 => rfl
  | _ => simp [Instr.opcode] at h

/-- Settles O2: the decoder answers, its instruction has the word's opcode and fits its encoding, and
an illegal one is the fault. -/
theorem everyWordDecodesByItsOpcode : Obligations.EveryWordDecodesByItsOpcode := by
  intro w
  obtain ⟨i, hi⟩ := decode_ok w
  exact ⟨i, hi, wellFormed_of_decode hi, (opcodeBits_of_decode hi).symm, fun hill s =>
    ⟨_, exec_of_illegal hill s, faultedWith_raise s _⟩⟩

/-! ### The ignored bits (R65) -/

/-- Words that agree below bit n have the same slices below bit n. -/
theorem extractLsb'_congr (h : ∀ k < n, w.getLsbD k = w'.getLsbD k) {width : Nat}
    (hn : lsb + width ≤ n) : w.extractLsb' lsb width = w'.extractLsb' lsb width := by
  refine BitVec.eq_of_getLsbD_eq fun k hk => ?_
  rw [BitVec.getLsbD_extractLsb', BitVec.getLsbD_extractLsb', h (lsb + k) (by omega)]

theorem sliceReg_congr (h : ∀ k < n, w.getLsbD k = w'.getLsbD k) (hn : lsb + 3 ≤ n) :
    sliceReg w lsb = sliceReg w' lsb :=
  congrArg BitVec.toFin (extractLsb'_congr h hn)

section
variable (hw : (w.extractLsb' 28 4).toNat = op) (hw' : (w'.extractLsb' 28 4).toNat = op)
include hw hw'

theorem EncodedAsABC.decode_congr_abc (hf : EncodedAsABC op f)
    (h : ∀ k < 9, w.getLsbD k = w'.getLsbD k) : decode w = decode w' := by
  rw [hf w hw, hf w' hw', sliceReg_congr (lsb := 6) h (by decide),
    sliceReg_congr (lsb := 3) h (by decide), sliceReg_congr (lsb := 0) h (by decide)]

theorem EncodedAsABC.decode_congr_bc {f : Reg → Reg → Instr}
    (hf : EncodedAsABC op fun _ b c => f b c) (h : ∀ k < 6, w.getLsbD k = w'.getLsbD k) :
    decode w = decode w' := by
  rw [hf w hw, hf w' hw', sliceReg_congr (lsb := 3) h (by decide),
    sliceReg_congr (lsb := 0) h (by decide)]

theorem EncodedAsABC.decode_congr_c {f : Reg → Instr} (hf : EncodedAsABC op fun _ _ c => f c)
    (h : ∀ k < 3, w.getLsbD k = w'.getLsbD k) : decode w = decode w' := by
  rw [hf w hw, hf w' hw', sliceReg_congr (lsb := 0) h (by decide)]

theorem EncodedAsABC.decode_congr (hf : EncodedAsABC op fun _ _ _ => i) :
    decode w = decode w' := by
  rw [hf w hw, hf w' hw']

theorem EncodedAsImm.decode_congr (hg : EncodedAsImm op g)
    (h : ∀ k < 28, w.getLsbD k = w'.getLsbD k) : decode w = decode w' := by
  rw [hg w hw, hg w' hw', sliceReg_congr (lsb := 25) h (by decide),
    extractLsb'_congr (lsb := 0) h (by decide)]

/-- The decoder reads the opcode and the bits its row's fields take up, and no others. -/
theorem decode_congr_of_usedLowBits (h : ∀ k < usedLowBits op, w.getLsbD k = w'.getLsbD k) :
    decode w = decode w' := by
  have hop : op < 16 := hw ▸ BitVec.isLt _
  match op, hop with
  | 0, _ => exact encodedAs_cmov.decode_congr_abc hw hw' h
  | 1, _ => exact encodedAs_sload.decode_congr_abc hw hw' h
  | 2, _ => exact encodedAs_sstore.decode_congr_abc hw hw' h
  | 3, _ => exact encodedAs_add.decode_congr_abc hw hw' h
  | 4, _ => exact encodedAs_mul.decode_congr_abc hw hw' h
  | 5, _ => exact encodedAs_div.decode_congr_abc hw hw' h
  | 6, _ => exact encodedAs_nand.decode_congr_abc hw hw' h
  | 7, _ => exact encodedAs_halt.decode_congr hw hw'
  | 8, _ => exact encodedAs_map.decode_congr_bc hw hw' h
  | 9, _ => exact encodedAs_unmap.decode_congr_c hw hw' h
  | 10, _ => exact encodedAs_out.decode_congr_c hw hw' h
  | 11, _ => exact encodedAs_inp.decode_congr_c hw hw' h
  | 12, _ => exact encodedAs_loadp.decode_congr_bc hw hw' h
  | 13, _ => exact encodedAs_lv.decode_congr hw hw' h
  | 14, _ => exact encodedAs_illegal14.decode_congr hw hw'
  | 15, _ => exact encodedAs_illegal15.decode_congr hw hw'
  | k + 16, hk => exact absurd hk (by omega)

end

/-- Settles O3: the decoder answers on one of the words, and the same on the other. -/
theorem ignoredBitsChangeNothing : Obligations.IgnoredBitsChangeNothing := by
  intro w w' hop h
  obtain ⟨i, hi⟩ := decode_ok w
  have hsame : decode w = decode w' := decode_congr_of_usedLowBits rfl (by rw [hop]) h
  exact ⟨i, hi, hsame ▸ hi⟩

/-! ### The spec's examples (R72) -/

/-- Settles O4, each example by its opcode's row. -/
theorem exampleWordsDecode : Obligations.ExampleWordsDecode :=
  ⟨encodedAs_add 0x300000CA#32 rfl, encodedAs_lv 0xD2000030#32 rfl,
    encodedAs_add 0x3FFFFECA#32 rfl, encodedAs_illegal14 0xE0000000#32 rfl⟩

end Sys2Proof.Machine
end

section
/-! PROOFS. The bit-field codec (40_bitfield_codec.md). The field of a word is the bit vector
`word.extractLsb' lsb width`: the extracts widen it by zeros (R84) or by the sign (R85), a fits
check asks for one that widens to the value (R83, R86), and the inserts put one into its place
(R87, R88). -/

namespace Sys2Proof.Machine

variable {n word value : CodecWord} {width lsb v : Nat} {z : Int}

/-! ### Where an operation fails (R81, R87, R88) -/

theorem inDomain_iff : Codec.inDomain width lsb = true ↔ width + lsb ≤ 64 := by
  rw [Codec.inDomain, decide_eq_true_iff]
  omega

theorem not_inDomain (h : 64 < width + lsb) : ¬ Codec.inDomain width lsb = true := by
  rw [inDomain_iff]
  omega

theorem fitsUnsigned_error (h : 64 < width) :
    Codec.fitsUnsigned n width = .error (.bitFieldOverflow width none (some n.toNat)) :=
  if_pos h

theorem fitsSigned_error (h : 64 < width) :
    Codec.fitsSigned n width = .error (.bitFieldOverflow width none (some n.toInt)) :=
  if_pos h

theorem extractUnsigned_error (h : 64 < width + lsb) :
    Codec.extractUnsigned word width lsb = .error (.bitFieldOverflow width (some lsb) none) :=
  if_neg (not_inDomain h)

theorem extractSigned_error (h : 64 < width + lsb) :
    Codec.extractSigned word width lsb = .error (.bitFieldOverflow width (some lsb) none) :=
  if_neg (not_inDomain h)

theorem insertUnsigned_error (h : 64 < width + lsb ∨ 2 ^ width ≤ value.toNat) :
    Codec.insertUnsigned word width lsb value =
      .error (.bitFieldOverflow width (some lsb) (some value.toNat)) :=
  if_neg fun ⟨hdom, hfit⟩ => h.elim (not_inDomain · hdom) hfit.not_ge

theorem insertSigned_error
    (h : 64 < width + lsb ∨ Codec.inSignedRange value.toInt width = false) :
    Codec.insertSigned word width lsb value =
      .error (.bitFieldOverflow width (some lsb) (some value.toInt)) :=
  if_neg fun ⟨hdom, hfit⟩ => h.elim (not_inDomain · hdom) (by simp [hfit])

/-- Settles O45: outside the domain each operation is its failure. -/
theorem codecChecksItsDomain : Obligations.CodecChecksItsDomain := by
  refine ⟨fun n width h => ⟨⟨_, fitsUnsigned_error h⟩, _, fitsSigned_error h⟩,
    fun word value width lsb h => ?_⟩
  have hout : 64 < width + lsb := by omega
  exact ⟨extractUnsigned_error hout, extractSigned_error hout,
    ⟨_, insertUnsigned_error (.inl hout)⟩, _, insertSigned_error (.inl hout)⟩

/-! ### The fits checks (R83, R86) -/

theorem fitsUnsigned_ok (hw : width ≤ 64) :
    Codec.fitsUnsigned n width = .ok (decide (n.toNat < 2 ^ width)) :=
  if_neg hw.not_gt

theorem fitsSigned_ok (hw : width ≤ 64) :
    Codec.fitsSigned n width = .ok (Codec.inSignedRange n.toInt width) :=
  if_neg hw.not_gt

/-- A value below 2^width is the value of a field. -/
theorem lt_two_pow_iff_setWidth (hw : width ≤ 64) :
    n.toNat < 2 ^ width ↔ ∃ f : BitVec width, n = f.setWidth 64 := by
  constructor
  · intro h
    refine ⟨BitVec.ofNat width n.toNat, BitVec.eq_of_toNat_eq ?_⟩
    rw [BitVec.toNat_setWidth_of_le hw, BitVec.toNat_ofNat, Nat.mod_eq_of_lt h]
  · rintro ⟨f, rfl⟩
    rw [BitVec.toNat_setWidth_of_le hw]
    exact f.isLt

theorem inSignedRange_zero : Codec.inSignedRange z 0 = true ↔ z = 0 :=
  decide_eq_true_iff

theorem inSignedRange_of_pos (h : 0 < width) : Codec.inSignedRange z width = true ↔
    -(2 : Int) ^ (width - 1) ≤ z ∧ z ≤ (2 : Int) ^ (width - 1) - 1 := by
  rw [Codec.inSignedRange, if_neg h.ne', decide_eq_true_iff]

/-- The signed range is that of the fields read in two's complement. -/
theorem inSignedRange_iff_toInt :
    Codec.inSignedRange z width = true ↔ ∃ f : BitVec width, f.toInt = z := by
  obtain rfl | hpos := Nat.eq_zero_or_pos width
  · rw [inSignedRange_zero]
    exact ⟨fun h => ⟨0#0, h ▸ BitVec.toInt_of_zero_length rfl _⟩,
      fun ⟨f, hf⟩ => hf ▸ BitVec.toInt_of_zero_length rfl f⟩
  · rw [inSignedRange_of_pos hpos]
    constructor
    · rintro ⟨hlo, hhi⟩
      exact ⟨BitVec.ofInt width z,
        BitVec.toInt_ofInt_eq_self hpos hlo (Int.lt_of_le_sub_one hhi)⟩
    · rintro ⟨f, rfl⟩
      exact ⟨f.le_toInt, Int.le_sub_one_of_lt f.toInt_lt⟩

theorem inSignedRange_iff_signExtend (hw : width ≤ 64) :
    Codec.inSignedRange n.toInt width = true ↔ ∃ f : BitVec width, n = f.signExtend 64 := by
  rw [inSignedRange_iff_toInt]
  refine exists_congr fun f => ?_
  rw [← BitVec.toInt_inj, BitVec.toInt_signExtend_of_le hw, eq_comm]

theorem fitsUnsigned_true_iff (hw : width ≤ 64) :
    Codec.fitsUnsigned n width = .ok true ↔ ∃ f : BitVec width, n = f.setWidth 64 := by
  rw [fitsUnsigned_ok hw, Except.ok.injEq, decide_eq_true_iff, lt_two_pow_iff_setWidth hw]

theorem fitsSigned_true_iff (hw : width ≤ 64) :
    Codec.fitsSigned n width = .ok true ↔ ∃ f : BitVec width, n = f.signExtend 64 := by
  rw [fitsSigned_ok hw, Except.ok.injEq, inSignedRange_iff_signExtend hw]

/-- Settles O46: the model's range checks, and the fields they range over. -/
theorem fitsChecksDecideRepresentability : Obligations.FitsChecksDecideRepresentability := by
  refine fun n width => ⟨fun hw => ⟨?unsigned, ?signed⟩,
    fun h => ⟨⟨_, _, fitsUnsigned_error h⟩, _, _, fitsSigned_error h⟩⟩
  case unsigned =>
    refine ⟨_, fitsUnsigned_ok hw, decide_eq_true_iff, ?_⟩
    rw [decide_eq_true_iff, lt_two_pow_iff_setWidth hw]
  case signed =>
    exact ⟨_, fitsSigned_ok hw, inSignedRange_iff_signExtend hw,
      inSignedRange_of_pos, fun h => h ▸ inSignedRange_zero⟩

/-! ### The extracts (R84, R85) -/

theorem toNat_extractLsb'_eq_fieldValue (word : CodecWord) (width lsb : Nat) :
    (word.extractLsb' lsb width).toNat = Codec.fieldValue word width lsb := by
  rw [BitVec.extractLsb'_toNat, Nat.shiftRight_eq_div_pow, Codec.fieldValue]

theorem extractUnsigned_eq_setWidth (h : width + lsb ≤ 64) :
    Codec.extractUnsigned word width lsb = .ok ((word.extractLsb' lsb width).setWidth 64) := by
  rw [extractUnsigned_ok word h, ← toNat_extractLsb'_eq_fieldValue, BitVec.ofNat_toNat]

/-- The model's case formula of R85 is two's complement. -/
theorem signedValue_toNat (f : BitVec width) : Codec.signedValue f.toNat width = f.toInt := by
  obtain _ | m := width
  · exact (BitVec.toInt_of_zero_length rfl f).symm
  · have hpow : 2 ^ (m + 1) = 2 * 2 ^ m := Nat.pow_succ'
    rw [Codec.signedValue, if_neg m.succ_ne_zero, BitVec.toInt_eq_toNat_cond,
      Nat.add_sub_cancel]
    obtain hlt | hge := Nat.lt_or_ge f.toNat (2 ^ m)
    · rw [if_neg hlt.not_ge, if_pos (by omega)]
    · rw [if_pos hge, if_neg (by omega), Nat.cast_pow, Nat.cast_ofNat]

theorem extractSigned_eq_signExtend (h : width + lsb ≤ 64) :
    Codec.extractSigned word width lsb = .ok ((word.extractLsb' lsb width).signExtend 64) := by
  rw [Codec.extractSigned, if_pos (inDomain_iff.2 h), ← toNat_extractLsb'_eq_fieldValue,
    signedValue_toNat, BitVec.signExtend]

/-- Settles O47, by the value and by the bits of the zero-extended field. -/
theorem extractUnsignedReadsTheField : Obligations.ExtractUnsignedReadsTheField := by
  refine fun word width lsb => ⟨fun hw h => ⟨_, extractUnsigned_eq_setWidth h, ?value, ?bits⟩,
    fun h => ⟨_, _, extractUnsigned_error (by omega)⟩⟩
  case value =>
    rw [BitVec.toNat_setWidth_of_le hw, toNat_extractLsb'_eq_fieldValue, Codec.fieldValue]
  case bits =>
    intro k hk
    rw [BitVec.getLsbD_setWidth, BitVec.getLsbD_extractLsb', decide_eq_true hk, Bool.true_and]

/-- Settles O48: the result's value is the field's, which the case formula gives. -/
theorem extractSignedReadsTheSignedField : Obligations.ExtractSignedReadsTheSignedField := by
  refine fun word width lsb => ⟨fun hw h => ⟨_, _, extractUnsigned_eq_setWidth h,
    extractSigned_eq_signExtend h, ?_, rfl⟩, fun h => ⟨_, _, extractSigned_error (by omega)⟩⟩
  rw [BitVec.toInt_signExtend_of_le hw, ← signedValue_toNat, BitVec.toNat_setWidth_of_le hw]
  rfl

/-! ### The inserts (R87, R88) -/

/-- The bits of hi + v * 2^lsb + lo. -/
theorem testBit_replaced (w : Nat) (hv : v < 2 ^ width) (k : Nat) :
    (w / 2 ^ (lsb + width) * 2 ^ (lsb + width) + v * 2 ^ lsb + w % 2 ^ lsb).testBit k =
      if lsb ≤ k ∧ k < lsb + width then v.testBit (k - lsb) else w.testBit k := by
  have hsum : w / 2 ^ (lsb + width) * 2 ^ (lsb + width) + v * 2 ^ lsb + w % 2 ^ lsb =
      2 ^ lsb * (2 ^ width * (w / 2 ^ (lsb + width)) + v) + w % 2 ^ lsb := by
    rw [pow_add]
    ring
  rw [hsum, Nat.testBit_two_pow_mul_add _ (Nat.mod_lt _ (Nat.two_pow_pos _)),
    Nat.testBit_two_pow_mul_add _ hv, Nat.testBit_mod_two_pow, Nat.testBit_div_two_pow]
  obtain hlo | hlo := Nat.lt_or_ge k lsb
  · simp [hlo, hlo.not_ge]
  · obtain hmid | hhi := Nat.lt_or_ge k (lsb + width)
    · simp [hlo, hlo.not_gt, hmid, Nat.sub_lt_left_of_lt_add hlo hmid]
    · have hk : k - lsb - width + (lsb + width) = k := by omega
      have hge : ¬ k - lsb < width := by omega
      simp [hlo.not_gt, hhi.not_gt, hge, hk]

section
variable (h : width + lsb ≤ 64) (hv : v < 2 ^ width)
include h hv

/-- The sum of R87 fits the word: none of its bits stands above bit 63. -/
theorem toNat_replaceField (word : CodecWord) : (Codec.replaceField word width lsb v).toNat =
    word.toNat / 2 ^ (lsb + width) * 2 ^ (lsb + width) + v * 2 ^ lsb + word.toNat % 2 ^ lsb := by
  refine Nat.mod_eq_of_lt (Nat.lt_pow_two_of_testBit _ fun k hk => ?_)
  rw [testBit_replaced _ hv, if_neg (by omega), BitVec.testBit_toNat]
  exact BitVec.getLsbD_of_ge word k hk

theorem getLsbD_replaceField (word : CodecWord) (k : Nat) :
    (Codec.replaceField word width lsb v).getLsbD k =
      if lsb ≤ k ∧ k < lsb + width then v.testBit (k - lsb) else word.getLsbD k := by
  rw [← BitVec.testBit_toNat, toNat_replaceField h hv, testBit_replaced _ hv,
    BitVec.testBit_toNat]

theorem getLsbD_replaceField_outside (word : CodecWord) (k : Nat)
    (hk : k < lsb ∨ lsb + width ≤ k) :
    (Codec.replaceField word width lsb v).getLsbD k = word.getLsbD k := by
  rw [getLsbD_replaceField h hv, if_neg (by omega)]

end

/-- The field that was put in is read back. -/
theorem extractLsb'_replaceField (h : width + lsb ≤ 64) (word : CodecWord) (f : BitVec width) :
    (Codec.replaceField word width lsb f.toNat).extractLsb' lsb width = f := by
  refine BitVec.eq_of_getLsbD_eq fun k hk => ?_
  rw [BitVec.getLsbD_extractLsb', getLsbD_replaceField h f.isLt, if_pos (by omega),
    Nat.add_sub_cancel_left, BitVec.testBit_toNat, decide_eq_true hk, Bool.true_and]

theorem insertUnsigned_ok (h : width + lsb ≤ 64) (hfit : value.toNat < 2 ^ width) :
    Codec.insertUnsigned word width lsb value =
      .ok (Codec.replaceField word width lsb value.toNat) :=
  if_pos ⟨inDomain_iff.2 h, hfit⟩

theorem insertUnsigned_setWidth (h : width + lsb ≤ 64) (f : BitVec width) :
    Codec.insertUnsigned word width lsb (f.setWidth 64) =
      .ok (Codec.replaceField word width lsb f.toNat) := by
  have hf : (f.setWidth 64).toNat = f.toNat := BitVec.toNat_setWidth_of_le (by omega)
  rw [insertUnsigned_ok h (hf ▸ f.isLt), hf]

/-- The two's complement encoding of a field's signed value is the field. -/
theorem encodeSigned_toInt (f : BitVec width) : Codec.encodeSigned f.toInt width = f.toNat := by
  have h := BitVec.toNat_ofInt (n := width) f.toInt
  rw [BitVec.ofInt_toInt] at h
  simpa [Codec.encodeSigned] using h.symm

theorem insertSigned_signExtend (h : width + lsb ≤ 64) (f : BitVec width) :
    Codec.insertSigned word width lsb (f.signExtend 64) =
      .ok (Codec.replaceField word width lsb f.toNat) := by
  have hf : (f.signExtend 64).toInt = f.toInt := BitVec.toInt_signExtend_of_le (by omega)
  rw [Codec.insertSigned, hf, encodeSigned_toInt]
  exact if_pos ⟨inDomain_iff.2 h, inSignedRange_iff_toInt.2 ⟨f, rfl⟩⟩

/-- Settles O49, by the value and by the bits of the replaced word. -/
theorem insertUnsignedReplacesTheField : Obligations.InsertUnsignedReplacesTheField := by
  refine fun word value width lsb => ⟨fun _ h hfit => ⟨_, insertUnsigned_ok h hfit,
    toNat_replaceField h hfit word, fun k _ => ?_⟩,
    fun h => ⟨_, _, insertUnsigned_error (by omega)⟩⟩
  rw [getLsbD_replaceField h hfit, BitVec.testBit_toNat]

/-- Settles O50: a fitting value is a sign-extended field, and the encoding is that field
zero-extended. -/
theorem insertSignedInsertsTheEncoding : Obligations.InsertSignedInsertsTheEncoding := by
  refine fun word value width lsb => ⟨fun hw h hfit => ?ok, fun hout => ?error⟩
  case ok =>
    obtain ⟨f, rfl⟩ := (fitsSigned_true_iff hw).1 hfit
    refine ⟨f.setWidth 64, ?_, ?_, _, insertSigned_signExtend h f⟩
    · rw [BitVec.toNat_setWidth_of_le hw, BitVec.toInt_signExtend_of_le hw, ← encodeSigned_toInt]
      exact Int.toNat_of_nonneg (Int.emod_nonneg _ (by positivity))
    · rw [insertSigned_signExtend h, insertUnsigned_setWidth h]
  case error =>
    refine ⟨_, _, insertSigned_error ?_⟩
    obtain hw | hw := Nat.lt_or_ge 64 width
    · exact .inl (by omega)
    · rw [fitsSigned_ok hw, Except.ok.injEq] at hout
      exact hout.resolve_left hw.not_gt

/-! ### The round trips (R90, R91) -/

/-- Settles O51, on the field that zero-extends to the value. -/
theorem unsignedInsertExtractRoundTrip : Obligations.UnsignedInsertExtractRoundTrip := by
  intro word value width lsb h hfit
  obtain ⟨f, rfl⟩ := (fitsUnsigned_true_iff (by omega)).1 hfit
  refine ⟨_, insertUnsigned_setWidth h f, ?_, getLsbD_replaceField_outside h f.isLt word⟩
  rw [extractUnsigned_eq_setWidth h, extractLsb'_replaceField h]

/-- Settles O52, on the field that sign-extends to the value. -/
theorem signedInsertExtractRoundTrip : Obligations.SignedInsertExtractRoundTrip := by
  intro word value width lsb h hfit
  obtain ⟨f, rfl⟩ := (fitsSigned_true_iff (by omega)).1 hfit
  refine ⟨_, insertSigned_signExtend h f, ?_, getLsbD_replaceField_outside h f.isLt word⟩
  rw [extractSigned_eq_signExtend h, extractLsb'_replaceField h]

end Sys2Proof.Machine
end

section
/-! PROOFS. The register operations (41_register_ops.md). Each instruction that completes is `finish`
with an ALU result, whose frame `wroteOnly_finish` gives; what is left is the value of the result. -/

namespace Sys2Proof.Machine

variable {s : State} {a b c : Reg}

/-! ### CMOV (R100) -/

theorem exec_cmov_of_ne_zero (h : s.reg c ≠ 0#32) :
    exec (.cmov a b c) s = .next (s.finish a (s.reg b)) := by
  simp only [exec, execCmov, condHolds, decide_eq_true h, if_true]

theorem exec_cmov_of_eq_zero (h : s.reg c = 0#32) : exec (.cmov a b c) s = .next s.advance := by
  simp only [exec, execCmov, condHolds, h, ne_eq, not_true_eq_false, decide_false,
    Bool.false_eq_true, if_false]

/-- An instruction that only moves on leaves every register the value it had. -/
theorem wroteOnly_advance (s : State) (a : Reg) : s.WroteOnly s.advance a (s.reg a) where
  value := rfl
  others _ _ := rfl
  memory _ _ := rfl
  rest := rfl

/-- Settles O5, by the two values of the condition. -/
theorem cmovMovesIfConditionNonzero : Obligations.CmovMovesIfConditionNonzero :=
  ⟨encodedAs_cmov, fun a b _ s =>
    ⟨fun h => ⟨_, exec_cmov_of_ne_zero h, wroteOnly_finish s a (s.reg b)⟩,
      fun h => ⟨_, exec_cmov_of_eq_zero h, wroteOnly_advance s a⟩⟩⟩

/-! ### ADD and MUL (R101, R102) -/

/-- The carry is discarded. -/
theorem toNat_aluAdd (x y : Word) : (aluAdd x y).toNat = (x.toNat + y.toNat) % 2 ^ 32 :=
  BitVec.toNat_add x y

/-- The high half of the product is discarded. -/
theorem toNat_aluMul (x y : Word) : (aluMul x y).toNat = x.toNat * y.toNat % 2 ^ 32 :=
  BitVec.toNat_mul x y

/-- Settles O6: the word sum is the sum modulo 2^32. -/
theorem addIsSumModWord : Obligations.AddIsSumModWord :=
  ⟨encodedAs_add, fun a _ _ s => ⟨_, _, rfl, toNat_aluAdd _ _, wroteOnly_finish s a _⟩⟩

/-- Settles O7: the word product is the product modulo 2^32. -/
theorem mulIsProductModWord : Obligations.MulIsProductModWord :=
  ⟨encodedAs_mul, fun a _ _ s => ⟨_, _, rfl, toNat_aluMul _ _, wroteOnly_finish s a _⟩⟩

/-! ### DIV (R103, R108) -/

theorem exec_div_of_ne_zero (h : s.reg c ≠ 0#32) :
    exec (.div a b c) s = .next (s.finish a (aluDiv (s.reg b) (s.reg c))) := by
  simp only [exec, execDiv, isZero, h, decide_false, Bool.false_eq_true, if_false]

theorem exec_div_of_eq_zero (h : s.reg c = 0#32) :
    exec (.div a b c) s = .next (s.raise (.divideByZero (s.reg b))) := by
  simp only [exec, execDiv, isZero, decide_eq_true h, if_true, State.takeFault]

/-- The quotient is no larger than the dividend, so it fits the word. -/
theorem toNat_aluDiv (x y : Word) : (aluDiv x y).toNat = x.toNat / y.toNat :=
  Nat.mod_eq_of_lt ((Nat.div_le_self _ _).trans_lt x.isLt)

/-- Settles O8, by the divisor: the quotient's bounds are those of the natural division. -/
theorem divIsFloorQuotientOrFault : Obligations.DivIsFloorQuotientOrFault := by
  refine ⟨encodedAs_div, fun a b c s => ⟨fun h => ?quotient, fun h => ?fault⟩⟩
  case quotient =>
    have hpos : 0 < (s.reg c).toNat := one_le_toNat_iff.2 h
    refine ⟨_, _, exec_div_of_ne_zero h, ?_, ?_, ?_, wroteOnly_finish s a _⟩
    all_goals rw [toNat_aluDiv]
    · exact Nat.div_mul_le_self _ _
    · exact (Nat.div_lt_iff_lt_mul hpos).1 (Nat.lt_succ_self _)
    · exact Nat.div_le_self _ _
  case fault => exact ⟨_, exec_div_of_eq_zero h, faultedWith_raise s _⟩

/-! ### NAND (R104) -/

theorem getLsbD_aluNand (x y : Word) {k : Nat} (hk : k < 32) :
    (aluNand x y).getLsbD k = !(x.getLsbD k && y.getLsbD k) := by
  rw [aluNand, BitVec.getLsbD_not, BitVec.getLsbD_and, decide_eq_true hk, Bool.true_and]

/-- Settles O9, by the bits of the complement and of the AND. -/
theorem nandIsBitwiseNotAnd : Obligations.NandIsBitwiseNotAnd :=
  ⟨encodedAs_nand, fun a _ _ s =>
    ⟨_, _, rfl, fun _ hk => getLsbD_aluNand _ _ hk, wroteOnly_finish s a _⟩⟩

/-! ### LV (R105) -/

/-- The immediate is zero-extended, so its value is that of its 25 bits (R67). -/
theorem toNat_immValue (imm : Word) : (immValue imm).toNat = imm.toNat % 2 ^ 25 := by
  rw [immValue, BitVec.toNat_setWidth_of_le (by decide), BitVec.toNat_setWidth]

/-- Settles O10: the operand's value is that of the low 25 bits of the immediate. -/
theorem lvWritesZeroExtendedImmediate : Obligations.LvWritesZeroExtendedImmediate :=
  ⟨encodedAs_lv, fun a imm s => ⟨_, _, rfl, toNat_immValue imm, wroteOnly_finish s a _⟩⟩

end Sys2Proof.Machine
end

section
/-! PROOFS. The memory instructions (42_memory_ops.md). When each primitive of 20_memory.md fails, and
with which cause; each instruction as the one primitive it calls, completing or faulting; and from these
the statements, a fault's frame being `faultedWith_raise` and SLOAD's `wroteOnly_finish`. -/

namespace Sys2Proof.Machine

variable {s : State} {a b c : Reg} {m m' : Memory} {id o n v next : Word} {pool : List Word}
  {f : FaultCause}

/-! ### The end of the step: the primitive answers, and the answer is committed (R142) -/

variable {α : Type} {r : Except FaultCause α} {k : α → State}

theorem commit_map_of_ok {x : α} (h : r = .ok x) : s.commit (r.map k) = .next (k x) := by
  subst h
  rfl

theorem commit_map_of_error (h : r = .error f) :
    ∃ t, s.commit (r.map k) = .next t ∧ s.FaultedWith t f := by
  subst h
  exact ⟨_, rfl, faultedWith_raise s f⟩

/-! ### SLOAD (R120) -/

/-- All the ways MemRead can fail (20_memory.md R41). -/
theorem Memory.read_eq_error :
    m.read id o = .error f ↔
      (m.find id = none ∧ f = .unmappedSegment id) ∨
        ∃ g, m.find id = some g ∧ g.length ≤ o.toNat ∧ f = .offsetOutOfBounds id o g.length := by
  unfold Memory.read
  cases h : m.find id with
  | none => simp [eq_comm]
  | some g => by_cases ho : g.length ≤ o.toNat <;> simp [ho, eq_comm]

theorem exec_sload_of_read (h : s.seg.read (s.reg b) (s.reg c) = .ok v) :
    exec (.sload a b c) s = .next (s.finish a v) :=
  commit_map_of_ok h

theorem exec_sload_of_error (h : s.seg.read (s.reg b) (s.reg c) = .error f) :
    ∃ t, exec (.sload a b c) s = .next t ∧ s.FaultedWith t f :=
  commit_map_of_error h

/-- Settles O11, by what the read answers. -/
theorem sloadReadsTheWordOrFaults : Obligations.SloadReadsTheWordOrFaults := by
  refine ⟨encodedAs_sload, fun a b c s =>
    ⟨fun g hg ho => ?inside, fun hg => ?unmapped, fun g hg ho => ?outside⟩⟩
  case inside =>
    exact ⟨_, exec_sload_of_read (Memory.read_eq_ok.2 ⟨g, hg, ho, rfl⟩), wroteOnly_finish s a _⟩
  case unmapped => exact exec_sload_of_error (Memory.read_eq_error.2 (.inl ⟨hg, rfl⟩))
  case outside => exact exec_sload_of_error (Memory.read_eq_error.2 (.inr ⟨g, hg, ho, rfl⟩))

/-! ### SSTORE (R121) -/

/-- MemWrite fails where MemRead of the same address does, with the same cause (20_memory.md R42). -/
theorem Memory.write_eq_error_iff_read : m.write id o v = .error f ↔ m.read id o = .error f := by
  unfold Memory.write Memory.read
  cases m.find id with
  | none => simp
  | some g => by_cases ho : g.length ≤ o.toNat <;> simp [ho]

/-- A write maps, unmaps and resizes nothing. -/
theorem Memory.write_find_length (h : m.write id o v = .ok m') (id' : Word) :
    (m'.find id').map Segment.length = (m.find id').map Segment.length := by
  by_cases hi : id' = id
  · subst hi
    obtain ⟨g, hg, -, rfl⟩ := Memory.write_eq_ok.1 h
    rw [Memory.find_put_self, hg]
    rfl
  · rw [Memory.write_find_ne h hi]

/-- An offset inside a mapped segment can be written, with any word. -/
theorem Memory.exists_write {g : Segment} (hg : m.find id = some g) (ho : o.toNat < g.length)
    (v : Word) : ∃ m', m.write id o v = .ok m' :=
  ⟨_, Memory.write_eq_ok.2 ⟨g, hg, ho, rfl⟩⟩

theorem exec_sstore_of_read_error (h : s.seg.read (s.reg a) (s.reg b) = .error f) :
    ∃ t, exec (.sstore a b c) s = .next t ∧ s.FaultedWith t f :=
  commit_map_of_error (Memory.write_eq_error_iff_read.2 h)

/-- Settles O12, by whether the address is readable: then it is written, and nothing else is. -/
theorem sstoreWritesTheWordOrFaults : Obligations.SstoreWritesTheWordOrFaults := by
  refine ⟨encodedAs_sstore, fun a b c s =>
    ⟨fun g hg ho => ?inside, fun hg => ?unmapped, fun g hg ho => ?outside⟩⟩
  case inside =>
    obtain ⟨m, hwrite⟩ := Memory.exists_write hg ho (s.reg c)
    exact ⟨_, exec_sstore_of_write hwrite, Memory.read_write_self hwrite,
      fun _ _ => Memory.read_write_ne hwrite, Memory.write_find_length hwrite, rfl⟩
  case unmapped => exact exec_sstore_of_read_error (Memory.read_eq_error.2 (.inl ⟨hg, rfl⟩))
  case outside => exact exec_sstore_of_read_error (Memory.read_eq_error.2 (.inr ⟨g, hg, ho, rfl⟩))

/-- Settles O15: the store leaves the address registers, so the load reads the word just written. -/
theorem storeThenLoadGivesTheStoredWord : Obligations.StoreThenLoadGivesTheStoredWord := by
  intro a b c d s g hg ho
  obtain ⟨m, hwrite⟩ := Memory.exists_write hg ho (s.reg c)
  exact ⟨_, _, exec_sstore_of_write hwrite, exec_sload_of_read (Memory.read_write_self hwrite), rfl,
    reg_finish_self _ d _⟩

/-! ### MAP (R122) -/

/-- The choice of an ID fails only with an empty pool and a counter above ID_MAX (20_memory.md R44). -/
theorem chooseId_eq_error :
    s.chooseId = .error f ↔
      s.pool = [] ∧ s.params.idMax.toNat < s.next.toNat ∧ f = .segmentIds s.next := by
  unfold State.chooseId
  cases s.pool with
  | nil => by_cases hc : s.params.idMax.toNat < s.next.toNat <;> simp [hc, eq_comm]
  | cons id rest => simp

/-- With a freed ID, or a counter that has not passed ID_MAX, there is an ID to be had. -/
theorem exists_chooseId (h : s.pool ≠ [] ∨ s.next.toNat ≤ s.params.idMax.toNat) :
    ∃ r, s.chooseId = .ok r := by
  cases hid : s.chooseId with
  | ok r => exact ⟨r, rfl⟩
  | error f =>
    obtain ⟨hpool, hmax, -⟩ := chooseId_eq_error.1 hid
    exact absurd h (by simp [hpool, hmax])

/-- Map fails where no ID is to be had, else where the capacity leaves no room for the length. -/
theorem mapSegment_eq_error :
    s.mapSegment n = .error f ↔
      s.chooseId = .error f ∨
        (∃ r, s.chooseId = .ok r) ∧ s.params.memCapacityWords < s.seg.used + n.toNat ∧
          f = .capacity n.toNat := by
  unfold State.mapSegment
  cases s.chooseId with
  | error c => simp
  | ok r =>
    by_cases hc : s.params.memCapacityWords < s.seg.used + n.toNat <;> simp [hc, eq_comm]

/-- A new segment of zeros reads 0 inside it. -/
theorem Memory.read_put_zeros (m : Memory) (id o : Word) (n : Nat) :
    Memory.read (assocPut id.toNat (Segment.zeros n) m) id o =
      if o.toNat < n then .ok 0#32 else .error (.offsetOutOfBounds id o n) := by
  split
  · exact Memory.read_eq_ok.2 ⟨_, Memory.find_put_self, ‹_›, rfl⟩
  · exact Memory.read_eq_error.2 (.inr ⟨_, Memory.find_put_self, not_lt.1 ‹_›, rfl⟩)

/-- MAP's frame holds whichever ID was chosen, and whatever the choice leaves of the pool and the
counter. -/
theorem mappedNew_finish (s : State) (b : Reg) (id : Word) (n : Nat) (pool : List Word)
    (next : Word) :
    s.MappedNew ({ s with seg := assocPut id.toNat (Segment.zeros n) s.seg, pool := pool,
                          next := next }.finish b id) b id n where
  value := reg_finish_self _ b id
  others _ h := reg_finish_ne _ b id h
  zeros o := Memory.read_put_zeros s.seg id o n
  memory _ _ h := Memory.read_congr (Memory.find_put_ne h)
  rest := rfl

/-- A MAP of n words that gets an ID and has room for them completes. -/
theorem exec_map_of_chooseId (hn : s.reg c = n) (hid : s.chooseId = .ok (id, pool, next))
    (hroom : s.seg.used + n.toNat ≤ s.params.memCapacityWords) :
    exec (.map b c) s =
      .next ({ s with seg := assocPut id.toNat (Segment.zeros n.toNat) s.seg, pool := pool,
                      next := next }.finish b id) := by
  subst hn
  exact commit_map_of_ok (mapSegment_eq_ok.2 ⟨pool, next, hid, hroom, rfl⟩)

theorem exec_map_of_error (h : s.mapSegment (s.reg c) = .error f) :
    ∃ t, exec (.map b c) s = .next t ∧ s.FaultedWith t f :=
  commit_map_of_error h

/-- Settles O13, by where the ID comes from, and for the faults by what is exhausted. -/
theorem mapReusesOrMintsOrFaults : Obligations.MapReusesOrMintsOrFaults := by
  refine ⟨encodedAs_map, fun b c s =>
    ⟨fun id rest hpool hroom => ?reuse, fun hpool hmax hroom => ?mint, fun hpool hmax => ?noId,
      fun hid hroom => ?noRoom⟩⟩
  case reuse =>
    have hid := chooseId_eq_ok.2 (.inl ⟨hpool, rfl⟩)
    exact ⟨_, exec_map_of_chooseId rfl hid hroom, mappedNew_finish s b _ _ _ _, rfl, rfl⟩
  case mint =>
    have hid := chooseId_eq_ok.2 (.inr ⟨hpool, rfl, hmax, rfl, rfl⟩)
    exact ⟨_, exec_map_of_chooseId rfl hid hroom, mappedNew_finish s b _ _ _ _, rfl, rfl⟩
  case noId =>
    have hid := chooseId_eq_error.2 ⟨hpool, hmax, rfl⟩
    exact exec_map_of_error (mapSegment_eq_error.2 (.inl hid))
  case noRoom =>
    exact exec_map_of_error (mapSegment_eq_error.2 (.inr ⟨exists_chooseId hid, hroom, rfl⟩))

/-! ### UNMAP (R123) -/

/-- All the ways Unmap can fail (20_memory.md R46). -/
theorem unmapSegment_eq_error :
    s.unmapSegment id = .error f ↔
      (id = 0#32 ∧ f = .unmapSegmentZero) ∨
        (id ≠ 0#32 ∧ ¬ s.mapped id ∧ f = .unmappedSegment id) := by
  unfold State.unmapSegment State.mapped
  by_cases hi : id = 0#32
  · simp [hi, eq_comm]
  · cases s.seg.find id <;> simp [hi, eq_comm]

/-- An UNMAP of a mapped ID other than 0 completes. -/
theorem exec_unmap_of_mapped (hid : s.reg c = id) (h0 : id ≠ 0#32) (hm : s.mapped id) :
    exec (.unmap c) s =
      .next { s with seg := assocDel id.toNat s.seg, pool := id :: s.pool }.advance := by
  subst hid
  exact commit_map_of_ok (unmapSegment_eq_ok.2 ⟨h0, hm, rfl⟩)

theorem exec_unmap_of_error (h : s.unmapSegment (s.reg c) = .error f) :
    ∃ t, exec (.unmap c) s = .next t ∧ s.FaultedWith t f :=
  commit_map_of_error h

/-- Settles O14, by whether the ID is 0, else by whether it is mapped. -/
theorem unmapReleasesOrFaults : Obligations.UnmapReleasesOrFaults := by
  refine ⟨encodedAs_unmap, fun c s =>
    ⟨fun h0 hm => ?release, fun h0 => ?zero, fun h0 hm => ?unmapped⟩⟩
  case release =>
    exact ⟨_, exec_unmap_of_mapped rfl h0 hm,
      fun _ => Memory.read_eq_error.2 (.inl ⟨Memory.find_del_self, rfl⟩),
      fun _ _ h => Memory.read_congr (Memory.find_del_ne h), rfl⟩
  case zero => exact exec_unmap_of_error (unmapSegment_eq_error.2 (.inl ⟨h0, rfl⟩))
  case unmapped => exact exec_unmap_of_error (unmapSegment_eq_error.2 (.inr ⟨h0, hm, rfl⟩))

/-! ### The order of reuse (R124) -/

/-- A write to a sorted table adds at most the new entry's measure: an entry it replaces only frees
some. -/
theorem sum_assocPut_le (w : α → Nat) (k : Nat) (x : α) (t : List (Nat × α)) :
    ((assocPut k x t).map (w ·.2)).sum ≤ (t.map (w ·.2)).sum + w x := by
  induction t with
  | nil => simp [assocPut]
  | cons e t ih => simp only [assocPut]; split_ifs <;> simp <;> omega

theorem Memory.used_put_zeros_le (m : Memory) (id : Word) (n : Nat) :
    Memory.used (assocPut id.toNat (Segment.zeros n) m) ≤ m.used + n :=
  sum_assocPut_le Segment.length _ _ m

theorem Memory.used_del_le (m : Memory) (id : Word) : Memory.used (assocDel id.toNat m) ≤ m.used :=
  sum_assocDel_le Segment.length

/-- Settles O17. The two UNMAPs leave q's ID above p's in the pool and use no words; so the MAPs take q's
ID, p's and then the counter, each using at most x[C] words of the room for three. -/
theorem freedIdsAreReusedLastFirst : Obligations.FreedIdsAreReusedLastFirst := by
  intro p q b1 b2 b3 c s hpool hne hp0 hq0 hp hq hc1 hc2 hmax hroom
  have hqm := Memory.find_del_ne_none.2 ⟨hne.symm, hq⟩
  -- the words used after each UNMAP and after each of the first two MAPs
  have hu1 := Memory.used_del_le s.seg (s.reg p)
  have hu2 := Memory.used_del_le (assocDel (s.reg p).toNat s.seg) (s.reg q)
  have hu3 := Memory.used_put_zeros_le (assocDel (s.reg q).toNat (assocDel (s.reg p).toNat s.seg))
    (s.reg q) (s.reg c).toNat
  have hu4 := Memory.used_put_zeros_le _ (s.reg p) (s.reg c).toNat |>.trans
    (Nat.add_le_add_right hu3 _)
  refine ⟨_, _, _, _, _, exec_unmap_of_mapped rfl hp0 hp,
    exec_unmap_of_mapped (id := s.reg q) rfl hq0 hqm,
    exec_map_of_chooseId (n := s.reg c) rfl (chooseId_eq_ok.2 (.inl ⟨rfl, rfl⟩)) ?_,
    exec_map_of_chooseId (n := s.reg c) (reg_finish_ne _ b1 _ hc1)
      (chooseId_eq_ok.2 (.inl ⟨rfl, rfl⟩)) ?_,
    exec_map_of_chooseId (n := s.reg c)
      ((reg_finish_ne _ b2 _ hc2).trans (reg_finish_ne _ b1 _ hc1))
      (chooseId_eq_ok.2 (.inr ⟨hpool, rfl, hmax, rfl, rfl⟩)) ?_,
    reg_finish_self _ b1 _, reg_finish_self _ b2 _, reg_finish_self _ b3 _, rfl, rfl, rfl⟩
  all_goals simp only [advance_seg, finish_seg, advance_params, finish_params]; omega

end Sys2Proof.Machine
end

section
/-! PROOFS. Engine control (43_engine_control.md): the step runs the instruction fetched (R141), HALT is
the one way to Halted (R146), LOADP is the primitive Dup and a jump (R148), and opcodes 14 and 15 are the
fault (R150). -/

namespace Sys2Proof.Machine

variable {s t u : State} {i : Instr} {b c : Reg} {m m' : Memory} {id id' o v : Word} {cap : Nat}
  {f : FaultCause}

/-! ### The step (R140, R141) -/

/-- Settles O25: `step` is its last arm, exec of the decoded word. -/
theorem stepRunsTheDecodedInstruction : Obligations.StepRunsTheDecodedInstruction :=
  fun _ _ _ hrun hread hdec => step_eq_exec hrun hread hdec

/-! ### HALT (R146) -/

/-- Of the endings of an instruction only HALT's halts a Running engine. -/
theorem Ending.eq_halt_of_halted (h : Ending s u i t) (hrun : u.st = .running)
    (ht : t.st = .halted) : i = .halt := by
  cases h with
  | halt => rfl
  | finish | advance | jump => cases hrun.symm.trans ht

/-- Settles O18: a step is taken while Running, a fault ends in Faulted and a wait leaves the engine
Running, so a step to Halted is an instruction's ending, HALT's. -/
theorem haltAndOnlyHaltHalts : Obligations.HaltAndOnlyHaltHalts := by
  refine ⟨encodedAs_halt, fun s => ⟨_, rfl, rfl⟩, fun s t hstep ht => ?onlyHalt⟩
  case onlyHalt =>
    obtain ⟨hrun, ⟨f, rfl⟩ | rfl | ⟨w, i, u, hread, hdec, ha, he⟩⟩ := step_access_ending hstep
    · cases ht
    · cases hrun.symm.trans ht
    · obtain rfl := he.eq_halt_of_halted (ha.st_eq.trans hrun) ht
      exact ⟨w, hread, opcodeBits_of_decode hdec⟩

/-! ### LOADP (R148) -/

/-- All the ways Dup can fail (20_memory.md R47): never for segment 0 itself. -/
theorem Memory.dup_eq_error :
    m.dup cap id = .error f ↔
      id ≠ 0#32 ∧ ((m.find id = none ∧ f = .unmappedSegment id) ∨
        ∃ g, m.find id = some g ∧ cap < m.used - m.programLength + g.length ∧
          f = .capacity g.length) := by
  unfold Memory.dup
  by_cases hi : id = 0#32
  · simp [hi]
  · cases m.find id with
    | none => simp [hi, eq_comm]
    | some g => by_cases hc : cap < m.used - m.programLength + g.length <;> simp [hi, hc, eq_comm]

theorem loadProgram_eq_error :
    s.loadProgram id = .error f ↔ s.seg.dup s.params.memCapacityWords id = .error f := by
  unfold State.loadProgram
  cases s.seg.dup s.params.memCapacityWords id <;> simp

/-- IDs that name one segment read the same words; only their faults differ, which name the ID. -/
theorem Memory.read_eq_ok_congr (h : m'.find id' = m.find id) :
    m'.read id' o = .ok v ↔ m.read id o = .ok v := by
  rw [Memory.read_eq_ok, Memory.read_eq_ok, h]

/-- A LOADP whose Dup succeeds completes, with Dup's memory and pc at x[C], whatever x[C] is. -/
theorem exec_loadp_of_dup (h : s.seg.dup s.params.memCapacityWords (s.reg b) = .ok m) :
    exec (.loadp b c) s = .next ({ s with seg := m }.setPc (s.reg c)) :=
  commit_map_of_ok (loadProgram_eq_ok.2 ⟨m, h, rfl⟩)

theorem exec_loadp_of_dup_error (h : s.seg.dup s.params.memCapacityWords (s.reg b) = .error f) :
    ∃ t, exec (.loadp b c) s = .next t ∧ s.FaultedWith t f :=
  commit_map_of_error (loadProgram_eq_error.2 h)

/-- Settles O19, by what Dup answers. -/
theorem loadpJumpsOrCopiesOrFaults : Obligations.LoadpJumpsOrCopiesOrFaults := by
  refine ⟨encodedAs_loadp, fun b c s =>
    ⟨fun h0 => ?jump, fun g h0 hg hroom => ?copy, fun h0 hm => ?unmapped,
      fun g h0 hg hroom => ?noRoom⟩⟩
  case jump => exact ⟨_, exec_loadp_of_dup (Memory.dup_eq_ok.2 (.inl ⟨h0, rfl⟩)), rfl⟩
  case copy =>
    have hdup := Memory.dup_eq_ok.2 (.inr ⟨h0, g, hg, hroom, rfl⟩)
    have hzero := Memory.dup_find_zero hdup
    exact ⟨_, exec_loadp_of_dup hdup, hzero.trans hg, fun _ _ => Memory.read_eq_ok_congr hzero,
      fun _ _ hne => Memory.read_congr (Memory.dup_find_ne hdup hne), rfl⟩
  case unmapped =>
    have hnone := not_ne_iff.1 hm
    exact exec_loadp_of_dup_error (Memory.dup_eq_error.2 ⟨h0, .inl ⟨hnone, rfl⟩⟩)
  case noRoom =>
    exact exec_loadp_of_dup_error (Memory.dup_eq_error.2 ⟨h0, .inr ⟨g, hg, hroom, rfl⟩⟩)

/-! ### The illegal opcodes (R150) -/

/-- Settles O20: the two rows read no field, and their meaning is the fault. -/
theorem illegalOpcodesFault : Obligations.IllegalOpcodesFault :=
  ⟨encodedAs_illegal14, encodedAs_illegal15, fun s =>
    ⟨⟨_, exec_of_illegal (i := .illegal14) (by decide) s, faultedWith_raise s _⟩,
      ⟨_, exec_of_illegal (i := .illegal15) (by decide) s, faultedWith_raise s _⟩⟩⟩

end Sys2Proof.Machine
end

section
/-! PROOFS. The I/O port (44_io_port.md): OUT's byte and its range fault (R162); what the port answers to
each kind of stream, and IN as the completion of that answer (R161, R163); the wait, and the host's late
answer that ends it (R161, R193; log entry 5). -/

namespace Sys2Proof.Machine

variable {s : State} {c : Reg} {b : Byte} {bs : List Byte} {rest : InputRest} {tail : InputTail}
  {e : Bool}

/-! ### OUT (R162) -/

/-- The byte operand is the low 8 bits, so a value that fits a byte is kept. -/
theorem toNat_byteOperand {v : Word} (h : v.toNat ≤ 255) : (byteOperand v).toNat = v.toNat := by
  rw [byteOperand, BitVec.extractLsb'_toNat, Nat.shiftRight_zero]
  exact Nat.mod_eq_of_lt (by omega)

theorem exec_out_of_le (h : (s.reg c).toNat ≤ 255) :
    exec (.out c) s = .next (s.output (byteOperand (s.reg c))).advance := by
  simp only [exec, execOut, aboveByte, decide_eq_false (Nat.not_lt.2 h), Bool.false_eq_true, if_false]

theorem exec_out_of_gt (h : 255 < (s.reg c).toNat) :
    exec (.out c) s = .next (s.raise (.outputRange (s.reg c))) := by
  simp only [exec, execOut, aboveByte, decide_eq_true h, if_true, State.takeFault]

/-- Settles O21, by the range test: the byte's value is x[C], or the fault is taken. -/
theorem outEmitsTheByteOrFaults : Obligations.OutEmitsTheByteOrFaults :=
  ⟨encodedAs_out, fun _ s =>
    ⟨fun h => ⟨_, _, exec_out_of_le h, toNat_byteOperand h, rfl⟩,
      fun h => ⟨_, exec_out_of_gt h, faultedWith_raise s _⟩⟩⟩

/-! ### What the port answers (R161) -/

theorem input_of_eos (he : s.eos = true) : s.input = some (.endOfStream, s.inRest, true) := by
  simp only [State.input, he, if_true]

theorem input_of_byte (he : s.eos = false) (hr : s.inRest = ⟨b :: bs, tail⟩) :
    s.input = some (.byte b, ⟨bs, tail⟩, false) := by
  simp only [State.input, he, hr, Bool.false_eq_true, if_false]

theorem input_of_closed (he : s.eos = false) (hr : s.inRest = ⟨[], .closed⟩) :
    s.input = some (.endOfStream, ⟨[], .closed⟩, true) := by
  simp only [State.input, he, hr, Bool.false_eq_true, if_false]

theorem input_of_awaiting (he : s.eos = false) (hr : s.inRest = ⟨[], .awaiting⟩) :
    s.input = none := by
  simp only [State.input, he, hr, Bool.false_eq_true, if_false]

/-! ### IN (R163) -/

/-- A port that is left as it stood leaves the state as it was. -/
theorem withPort_eq_self (hr : s.inRest = rest) (he : s.eos = e) :
    { s with inRest := rest, eos := e } = s := by
  subst hr he
  rfl

theorem exec_inp_of_byte (c : Reg) (he : s.eos = false) (hr : s.inRest = ⟨b :: bs, tail⟩) :
    ∃ t v, exec (.inp c) s = .next t ∧ v.toNat = b.toNat ∧
      { s with inRest := ⟨bs, tail⟩ }.WroteOnly t c v := by
  have heos : { s with inRest := ⟨bs, tail⟩, eos := false } = { s with inRest := ⟨bs, tail⟩ } :=
    withPort_eq_self (s := { s with inRest := ⟨bs, tail⟩ }) rfl he
  exact ⟨_, _, exec_inp_of_input (input_of_byte he hr), toNat_inputValue_byte b,
    heos ▸ wroteOnly_finish _ c _⟩

theorem exec_inp_of_endOfStream (c : Reg) (h : s.input = some (.endOfStream, rest, e)) :
    ∃ t, exec (.inp c) s = .next t ∧
      { s with inRest := rest, eos := e }.WroteOnly t c 0xFFFFFFFF#32 :=
  ⟨_, exec_inp_of_input h, wroteOnly_finish _ c _⟩

/-- An IN the port does not answer waits: its step leads to the same state (log entry 5). -/
theorem exec_inp_of_none (c : Reg) (h : s.input = none) : exec (.inp c) s = .next s := by
  simp only [exec, execInp, h]

/-- Settles O22, by what the port answers to each kind of stream. -/
theorem inTakesTheByteOrTheSentinelOrWaits : Obligations.InTakesTheByteOrTheSentinelOrWaits := by
  refine ⟨encodedAs_inp, fun c s => ⟨fun b bs tail he hr => exec_inp_of_byte c he hr,
    fun he hr => ?closed, fun he => ?delivered, fun he hr t ht => ?waits⟩⟩
  case closed =>
    have hport : { s with inRest := ⟨[], .closed⟩, eos := true } = { s with eos := true } :=
      withPort_eq_self (s := { s with eos := true }) hr rfl
    exact hport ▸ exec_inp_of_endOfStream c (input_of_closed he hr)
  case delivered =>
    have hport : { s with inRest := s.inRest, eos := true } = s := withPort_eq_self rfl he
    have hin := exec_inp_of_endOfStream c (input_of_eos he)
    rwa [hport] at hin
  case waits =>
    rw [exec_inp_of_none c (input_of_awaiting he hr)] at ht
    cases ht
    rfl

/-! ### The wait and the host's late answer (R161, R193; log entry 5) -/

/-- An input request is outstanding in a Running engine whose fetched word is an IN the port leaves
unanswered, and in no other. -/
theorem inputRequested_iff :
    s.inputRequested = true ↔ s.st = .running ∧ ∃ w c, s.seg.read 0#32 s.pc = .ok w ∧
      decode w = .ok (.inp c) ∧ s.input = none := by
  simp only [← fetch_eq_ok_iff_read, State.inputRequested, Bool.and_eq_true, decide_eq_true_eq]
  refine and_congr_right fun _ => ?_
  cases s.fetch with
  | error f => simp
  | ok w =>
    obtain ⟨i, hi⟩ := decode_ok w
    cases i <;> simp [hi]

theorem hostSend_of_awaiting (b : Byte) (hr : s.inRest = ⟨bs, .awaiting⟩) :
    s.hostSend b = { s with inRest := ⟨bs ++ [b], .awaiting⟩ } := by
  simp only [State.hostSend, hr]

theorem hostClose_of_awaiting (hr : s.inRest = ⟨bs, .awaiting⟩) :
    s.hostClose = { s with inRest := ⟨bs, .closed⟩ } := by
  simp only [State.hostClose, hr]

/-- Settles O24: an unanswered IN is a step to the same state, and the host's late byte or closing makes
the stream one that the port answers. -/
theorem lateAnswerCompletesTheWaitingIn : Obligations.LateAnswerCompletesTheWaitingIn := by
  refine ⟨fun s hreq => ?wait, fun c s he hr => ⟨fun b => ?byte, ?close⟩⟩
  case wait =>
    obtain ⟨hrun, w, c, hread, hdec, hin⟩ := inputRequested_iff.1 hreq
    exact ⟨hrun, (step_eq_exec hrun hread hdec).trans (exec_inp_of_none c hin)⟩
  case byte =>
    have hback : { s with inRest := ⟨[], .awaiting⟩ } = s := withPort_eq_self hr rfl
    rw [hostSend_of_awaiting b hr]
    have hin := exec_inp_of_byte (s := { s with inRest := ⟨[b], .awaiting⟩ }) c he rfl
    rwa [hback] at hin
  case close =>
    rw [hostClose_of_awaiting hr]
    exact exec_inp_of_endOfStream c (input_of_closed he rfl)

end Sys2Proof.Machine
end

section
/-! PROOFS. The faults (60_exceptions.md): a faulting step commits its record alone and is the last one
(R180), and each fault is raised only by the instructions the table lists for its code (R181). -/

namespace Sys2Proof.Machine

variable {s t u : State} {i : Instr} {m : Memory} {id o n : Word} {f : FaultCause}

/-! ### A fault commits nothing and is final (R180) -/

/-- A completing instruction of a Running engine does not end in Faulted. -/
theorem Ending.st_ne_faulted (he : Ending s u i t) (ha : Access s i u) (hrun : s.st = .running) :
    t.st ≠ .faulted := by
  rcases he.st_cases with h | h <;> simp [h, ha.st_eq, hrun]

/-- Settles O28: taking the fault is the one way a step ends in Faulted, and a wait, an access and an
ending each keep the record. -/
theorem faultsCommitNothingAndAreFinal : Obligations.FaultsCommitNothingAndAreFinal := by
  intro s t hstep
  obtain ⟨hrun, ⟨f, rfl⟩ | rfl | ⟨w, i, u, -, -, ha, he⟩⟩ := step_access_ending hstep
  case inl =>
    obtain ⟨-, -, hfinal⟩ := stepsAreTakenExactlyWhileRunning
    exact ⟨fun _ => ⟨⟨f, faultedWith_raise s f⟩, hfinal _ rfl⟩, fun hok => absurd rfl hok⟩
  case inr.inl => exact ⟨fun ht => (nomatch hrun.symm.trans ht), fun _ => rfl⟩
  case inr.inr =>
    exact ⟨fun ht => absurd ht (he.st_ne_faulted ha hrun), fun _ => he.fr_eq.trans ha.fr_eq⟩

/-! ### The codes each primitive's failure has (R181) -/

theorem Memory.code_of_read_error (h : m.read id o = .error f) : f.code ∈ [0x1, 0x2] := by
  obtain ⟨-, rfl⟩ | ⟨g, -, -, rfl⟩ := Memory.read_eq_error.1 h
  · exact .head _
  · exact .tail _ (.head _)

theorem code_of_mapSegment_error (h : s.mapSegment n = .error f) : f.code ∈ [0x8, 0x9] := by
  obtain hid | ⟨-, -, rfl⟩ := mapSegment_eq_error.1 h
  · obtain ⟨-, -, rfl⟩ := chooseId_eq_error.1 hid
    exact .head _
  · exact .tail _ (.head _)

theorem code_of_unmapSegment_error (h : s.unmapSegment id = .error f) : f.code ∈ [0x1, 0x3] := by
  obtain ⟨-, rfl⟩ | ⟨-, -, rfl⟩ := unmapSegment_eq_error.1 h
  · exact .tail _ (.head _)
  · exact .head _

theorem code_of_loadProgram_error (h : s.loadProgram id = .error f) : f.code ∈ [0x1, 0x9] := by
  obtain ⟨-, ⟨-, rfl⟩ | ⟨g, -, -, rfl⟩⟩ := Memory.dup_eq_error.1 (loadProgram_eq_error.1 h)
  · exact .head _
  · exact .tail _ (.head _)

/-! ### Which instructions raise which fault (R181, "raised by") -/

/-- An instruction of a Running engine that ends in Faulted took a fault the table lists for its
opcode. -/
theorem Effect.raised_as_listed (h : Effect s i t) (hrun : s.st = .running) (ht : t.st = .faulted) :
    ∃ f, t = s.raise f ∧ i.opcode ∈ raisedBy f.code := by
  cases h with
  | divFault | outFault | illegal14 => exact ⟨_, rfl, .head _⟩
  | illegal15 => exact ⟨_, rfl, .tail _ (.head _)⟩
  | sloadFault h =>
    have hlisted : ∀ k ∈ [0x1, 0x2], 1 ∈ raisedBy k := by decide
    exact ⟨_, rfl, hlisted _ (Memory.code_of_read_error h)⟩
  | sstoreFault h =>
    have hlisted : ∀ k ∈ [0x1, 0x2], 2 ∈ raisedBy k := by decide
    exact ⟨_, rfl, hlisted _ (Memory.code_of_read_error (Memory.write_eq_error_iff_read.1 h))⟩
  | mapFault h =>
    have hlisted : ∀ k ∈ [0x8, 0x9], 8 ∈ raisedBy k := by decide
    exact ⟨_, rfl, hlisted _ (code_of_mapSegment_error h)⟩
  | unmapFault h =>
    have hlisted : ∀ k ∈ [0x1, 0x3], 9 ∈ raisedBy k := by decide
    exact ⟨_, rfl, hlisted _ (code_of_unmapSegment_error h)⟩
  | loadpFault h =>
    have hlisted : ∀ k ∈ [0x1, 0x9], 12 ∈ raisedBy k := by decide
    exact ⟨_, rfl, hlisted _ (code_of_loadProgram_error h)⟩
  | moved | cmov | add | mul | div | nand | lv | sload | sstore | out | inp | waits =>
    cases hrun.symm.trans ht
  | halt => cases ht
  | map h =>
    obtain ⟨_, _, -, -, rfl⟩ := mapSegment_eq_ok.1 h
    cases hrun.symm.trans ht
  | unmap h =>
    obtain ⟨-, -, rfl⟩ := unmapSegment_eq_ok.1 h
    cases hrun.symm.trans ht
  | loadp h =>
    obtain ⟨_, -, rfl⟩ := loadProgram_eq_ok.1 h
    cases hrun.symm.trans ht

/-- Settles O29: the fault is the fetch's, which records no word, or that of the instruction fetched,
whose opcode the table lists. -/
theorem faultsAreRaisedOnlyAsListed : Obligations.FaultsAreRaisedOnlyAsListed := by
  intro s t r hstep ht hr
  obtain ⟨hrun, ⟨hpc, rfl⟩ | ⟨w, i, hfetch, hdec, -, heff⟩⟩ := step_cases hstep
  case inl =>
    have hfetch := fetch_eq_error.2 ⟨hpc, rfl⟩
    cases hr
    exact .inl ⟨rfl, congrArg Except.toOption hfetch, hpc⟩
  case inr =>
    obtain ⟨f, rfl, hlisted⟩ := heff.raised_as_listed hrun ht
    cases hr
    exact .inr ⟨w, congrArg Except.toOption hfetch, fetch_eq_ok_iff_read.1 hfetch,
      opcodeBits_of_decode hdec ▸ hlisted⟩

end Sys2Proof.Machine
end

section
/-! PROOFS. The launch (70_reset_and_hazards.md): the state it gives (R211), the images it refuses and the
big-endian words of the others (R212), and the reset state, which is the launch of the empty image. -/

namespace Sys2Proof.Machine

variable {P : List Word} {params : Params} {input : InputRest} {k : Nat}

/-! ### Reset (R211) -/

theorem reset_eq_launched :
    State.reset = State.launched [] ⟨Config.capacityAtReset, Config.idMaxDefault⟩ freeStream := rfl

/-- Settles O41: reset is the launch of the program of 0 words. -/
theorem resetMeetsTheStateInvariant : Obligations.ResetMeetsTheStateInvariant := by
  unfold Obligations.ResetMeetsTheStateInvariant
  rw [reset_eq_launched]
  exact launched_inv (Nat.two_pow_pos 32) (Nat.zero_le _) (by decide)

/-! ### Segment 0 after a launch (R211) -/

/-- Reading the entry list of a word list gives back each word, the unlisted ones by the zero fill. -/
theorem Segment.getD_assocFind_entries {ws : List Word} (o : Nat) (hk : k < ws.length) :
    (assocFind (o + k) (Segment.entries o ws)).getD 0#32 = ws[k] := by
  induction ws generalizing o k with
  | nil => exact absurd hk (Nat.not_lt_zero k)
  | cons w ws ih =>
    rw [Segment.entries]
    cases k with
    | zero =>
      have hnone : assocFind o (Segment.entries (o + 1) ws) = none :=
        Option.eq_none_iff_forall_ne_some.2 fun v hv =>
          absurd (Segment.entries_bounds (mem_of_assocFind hv)).1 (Nat.not_succ_le_self o)
      split
      · next hw => simp [hnone, hw]
      · simp [assocFind]
    | succ k =>
      have hlater := ih (o + 1) (Nat.lt_of_succ_lt_succ hk)
      rw [Nat.add_right_comm, Nat.add_assoc] at hlater
      split
      · exact hlater
      · rwa [assocFind, if_neg (by omega)]

theorem Segment.ofWords_get {ws : List Word} (hk : k < ws.length) :
    (Segment.ofWords ws).get k = ws[k] := by
  have h := Segment.getD_assocFind_entries 0 hk
  rwa [Nat.zero_add] at h

theorem launched_find_zero :
    (State.launched P params input).seg.find 0#32 = some (Segment.ofWords P) := rfl

theorem reg_launched (r : Reg) : (State.launched P params input).reg r = 0#32 :=
  Vector.getElem_replicate r.isLt

/-- Settles O43: an accepted launch gives the state `State.launched`, whose segment 0 reads as the
program's words. -/
theorem launchSetsEveryResetValue : Obligations.LaunchSetsEveryResetValue := by
  intro bs params input s h
  obtain ⟨bs', himg, -, -, -, rfl⟩ := launch_eq_ok.1 h
  cases himg
  refine ⟨reg_launched, rfl, rfl, rfl, fun _ => launched_mapped, ⟨_, launched_find_zero, rfl, ?_⟩,
    rfl, rfl, rfl, rfl, rfl⟩
  intro k hk
  rw [Segment.ofWords_get hk]
  exact List.getElem?_eq_getElem hk

/-! ### Which images are refused (R212) -/

theorem LaunchError.code_eq (e : LaunchError) : e.code = 0xB := by cases e <;> rfl

/-- A launch that is not accepted is refused with the one code of a ProgramLoadError. -/
theorem launch_refused {img : ImageSource} (h : ∀ s, launch img params input ≠ .ok s) :
    ∃ e, launch img params input = .error e ∧ e.code = 0xB := by
  cases hl : launch img params input with
  | error e => exact ⟨e, rfl, e.code_eq⟩
  | ok s => exact absurd hl (h s)

/-! ### The words of an image (R212) -/

theorem toNat_append_byte {n : Nat} (x : BitVec n) (b : Byte) :
    (x ++ b).toNat = x.toNat * 2 ^ 8 + b.toNat := by
  rw [BitVec.toNat_append, ← Nat.shiftLeft_add_eq_or_of_lt b.isLt, Nat.shiftLeft_eq]

theorem toNat_wordOfBytes (b0 b1 b2 b3 : Byte) : (wordOfBytes b0 b1 b2 b3).toNat =
    b0.toNat * 2 ^ 24 + b1.toNat * 2 ^ 16 + b2.toNat * 2 ^ 8 + b3.toNat := by
  simp only [wordOfBytes, toNat_append_byte]
  omega

/-- Word k of an image is made of its bytes 4k to 4k+3. -/
theorem wordsOfImage_getElem? : ∀ {bs : List Byte} {k : Nat}, k < (wordsOfImage bs).length →
    ∃ b0 b1 b2 b3, bs[4 * k]? = some b0 ∧ bs[4 * k + 1]? = some b1 ∧ bs[4 * k + 2]? = some b2 ∧
      bs[4 * k + 3]? = some b3 ∧ (wordsOfImage bs)[k]? = some (wordOfBytes b0 b1 b2 b3)
  | b0 :: b1 :: b2 :: b3 :: _, 0, _ => ⟨b0, b1, b2, b3, rfl, rfl, rfl, rfl, rfl⟩
  | _ :: _ :: _ :: _ :: rest, k + 1, hk =>
    wordsOfImage_getElem? (bs := rest) (k := k) (Nat.lt_of_succ_lt_succ hk)
  | [], _, hk | [_], _, hk | [_, _], _, hk | [_, _, _], _, hk => absurd hk (Nat.not_lt_zero _)

/-- Settles O44: the conditions of an accepted launch are exactly the complement of the refusals, and the
first fetch of the empty program is out of its bounds. -/
theorem launchRefusesOrLoadsBigEndianWords : Obligations.LaunchRefusesOrLoadsBigEndianWords := by
  refine ⟨fun params input => launch_refused fun s h => ?unreadable, fun bs params input =>
    ⟨fun hbad => launch_refused fun s h => ?refused, fun hmod hlen hcap => ?loaded, ?empty⟩⟩
  case unreadable =>
    obtain ⟨_, himg, -⟩ := launch_eq_ok.1 h
    cases himg
  case refused =>
    obtain ⟨_, himg, hmod, hlen, hcap, -⟩ := launch_eq_ok.1 h
    cases himg
    omega
  case loaded =>
    refine ⟨_, _, launch_eq_ok.2 ⟨bs, rfl, hmod, hlen, hcap, rfl⟩, launched_find_zero,
      length_wordsOfImage bs, fun k hk => ?_⟩
    obtain ⟨b0, b1, b2, b3, h0, h1, h2, h3, hword⟩ := wordsOfImage_getElem? hk
    have hget : (Segment.ofWords (wordsOfImage bs)).get k = wordOfBytes b0 b1 b2 b3 :=
      (Segment.ofWords_get hk).trans (List.getElem_of_getElem? hword).2
    exact ⟨b0, b1, b2, b3, h0, h1, h2, h3, hget ▸ toNat_wordOfBytes b0 b1 b2 b3⟩
  case empty =>
    rintro rfl
    obtain ⟨t, hstep, hfault⟩ := fetchOutsideTheProgramFaults (State.launched [] params input) _ rfl
      launched_find_zero le_rfl
    exact ⟨_, t, launch_eq_ok.2 ⟨[], rfl, rfl, Nat.zero_le _, Nat.zero_le _, rfl⟩, hstep, hfault⟩

end Sys2Proof.Machine
end
